-- ==== Sys2Proof/Word.lean ====
section
/-! DEFINITION. The word types of the core (00_scope.md rule R4): bytes, memory addresses, the 9-bit program counter. -/

namespace Sys2Proof

/-- A byte: 8 bits, always read as an unsigned integer 0 to 255 (00_scope.md section 5.1). -/
abbrev Byte := BitVec 8

/-- A memory address: `MEM` has the addresses 0 to 255 and no other (20_memory.md R30), so an 8-bit
value names every address and nothing else. -/
abbrev Addr := BitVec 8

/-- The program counter: 9 bits, values 0 to 257 reachable (10_state.md R16). -/
abbrev PcWord := BitVec 9

end Sys2Proof
end

