-- ==== Sys2Proof/Config.lean ====
section
/-! DEFINITION. What an implementation fixes: the parameters of 00_scope.md R5. The opcode bytes are a record with the
check of 30_encoding.md R56; the record's default values stand in Decode.lean. -/

namespace Sys2Proof

/-- The twelve parameters `OPC_*` (00_scope.md R5): the opcode byte of each instruction. -/
structure Opcodes where
  add : Byte
  mul : Byte
  div : Byte
  cmp : Byte
  ldi : Byte
  prn : Byte
  hlt : Byte
  push : Byte
  pop : Byte
  jmp : Byte
  jeq : Byte
  jne : Byte
  deriving DecidableEq, Repr

/-- The opcodes the ALU recognises (40_fetch_dispatch.md R74). -/
def Opcodes.alu (o : Opcodes) : List Byte :=
  [o.add, o.mul, o.div, o.cmp]

/-- The one-register opcodes of the handler table (30_encoding.md R56 item 4). -/
def Opcodes.oneRegister (o : Opcodes) : List Byte :=
  [o.prn, o.push, o.pop, o.jmp, o.jeq, o.jne]

/-- The opcodes of the handler table, eight entries (40_fetch_dispatch.md R75). -/
def Opcodes.handlers (o : Opcodes) : List Byte :=
  o.ldi :: o.hlt :: o.oneRegister

/-- The twelve assigned opcodes (30_encoding.md R55). -/
def Opcodes.assigned (o : Opcodes) : List Byte :=
  o.alu ++ o.handlers

/-- What the source fixes about the opcode values, 30_encoding.md R56 items 1 to 5: pairwise distinct;
bits 7:5 are `101` for the ALU's four, `100` for LDI, `010` for the one-register handlers, `000` for HLT. -/
abbrev Opcodes.WellFormed (o : Opcodes) : Prop :=
  o.assigned.Nodup ∧
  (∀ c ∈ o.alu, c.extractLsb' 5 3 = 0b101#3) ∧
  o.ldi.extractLsb' 5 3 = 0b100#3 ∧
  (∀ c ∈ o.oneRegister, c.extractLsb' 5 3 = 0b010#3) ∧
  o.hlt.extractLsb' 5 3 = 0b000#3

/-- RESET_GPR, the reset value of registers 0 to 6 (00_scope.md R5, 10_state.md R27). UNVERIFIED, unsafe:
the spec's own decision D7, log 2. -/
def Config.resetGpr : Byte := 0x00#8

/-- RESET_FL, the reset value of the flags in the order L, G, E (00_scope.md R5, 10_state.md R27). UNVERIFIED,
unsafe: the spec's own decision D8, log 2. -/
def Config.resetFl : Bool × Bool × Bool := (false, false, false)

/-- SP_RESET, the reset value of register 7 (00_scope.md R4). -/
def Config.spReset : Byte := 0xF4#8

/-- MEM_SIZE, the number of bytes of memory (00_scope.md R4). -/
def Config.memSize : Nat := 256

/-- CYCLES_PER_STEP (00_scope.md R5): open, no default, no rule depends on it and no definition of the model
reads it (70_reset_and_hazards.md R173). Log 9. -/
opaque Config.cyclesPerStep : Nat

end Sys2Proof
end

