-- ==== Sys2Proof/Machine/State.lean ====
section
/-! DEFINITION. The state of the core, exactly the tuple of 10_state.md R10, its reset value (R27), and the reasons a
step of the model could stop (none is ever given: a fault of the core is a next state, log 3). -/

namespace Sys2Proof.Machine

/-- The 256-byte memory as (address, byte) pairs: addresses strictly rising, no byte listed that is zero, since an
unlisted address reads as 0x00 (20_memory.md R30 "zero-initialized"). Log 6. -/
abbrev Memory := List Host.Cell

/-- The condition flags `FL` (10_state.md R17). -/
structure Flags where
  /-- less-than -/
  l : Bool
  /-- greater-than -/
  g : Bool
  /-- equal -/
  e : Bool
  deriving DecidableEq, Repr

/-- The codes the `FAULT` register can hold (10_state.md R21, 60_exceptions.md R130). -/
inductive FaultCode where
  /-- `None`, code 0: no fault recorded. -/
  | noFault
  /-- Code 1: DIV with divisor 0 (60_exceptions.md R131). -/
  | divideByZero
  /-- Code 2: an unassigned opcode was fetched (60_exceptions.md R132). -/
  | unsupportedOperation
  /-- Code 3: the fetch, PUSH or POP would leave memory (60_exceptions.md R133). -/
  | addressOutOfRange
  /-- Code 4: a register operand byte above 7 (60_exceptions.md R134). -/
  | registerIndexOutOfRange
  deriving DecidableEq, Repr

/-- The whole state of the core (10_state.md R10). -/
structure State where
  /-- `MEM` (20_memory.md R30). -/
  mem : Memory
  /-- `x[0]` to `x[7]`, register 7 the stack pointer (10_state.md R11, R12). -/
  x : Vector Byte 8
  /-- The address of the next instruction (10_state.md R15, R16). -/
  pc : PcWord
  /-- `FL` (10_state.md R17). -/
  fl : Flags
  /-- `RUN` (10_state.md R20). -/
  run : Bool
  /-- `FAULT` (10_state.md R21). -/
  fault : FaultCode
  /-- `OUT`, oldest first (10_state.md R23). -/
  out : List Byte
  deriving DecidableEq, Repr

/-- Why the model could stop with a fault: it never does, so there is no constructor. Each fatal condition of the core
is recorded in `State.fault` and the step answers a next state (60_exceptions.md R135). Log 3, safe. -/
inductive Fault where
  deriving DecidableEq, Repr

/-- Why the model could give an instruction no meaning. -/
inductive Refusal where
  /-- Answered by an arm of `exec` for an instruction without a meaning; no arm is left that answers it. Safe. -/
  | notModelled (mnemonic : String)
  deriving DecidableEq, Repr

/-- What a meaning or a step answers. -/
abbrev Result := Host.Outcome State Fault Refusal

/-- The status of the core (10_state.md R22). -/
inductive Status where
  | running
  | halted
  | faulted (code : FaultCode)
  deriving DecidableEq, Repr

/-- The reset state for given values of the parameters RESET_GPR and RESET_FL (10_state.md R27, R29). -/
def State.resetWith (gpr : Byte) (fl : Flags) : State where
  mem := []
  x := #v[gpr, gpr, gpr, gpr, gpr, gpr, gpr, Config.spReset]
  pc := 0#9
  fl := fl
  run := true
  fault := .noFault
  out := []

/-- The machine right after reset (10_state.md R27, 70_reset_and_hazards.md R160): memory all zero, `x[0]` to `x[6]`
RESET_GPR, `x[7]` 0xF4, `pc` 0, the flags RESET_FL, `RUN` 1, `FAULT` None, `OUT` empty. Log 2. -/
def State.reset : State :=
  State.resetWith Config.resetGpr ⟨Config.resetFl.1, Config.resetFl.2.1, Config.resetFl.2.2⟩

end Sys2Proof.Machine
end

