-- ==== Sys2Proof/Machine/Ops.lean ====
section
/-! DEFINITION. The named operations over memory, registers and the other state: the one place that reads or writes
each component, and the one operation that raises a fault. -/

namespace Sys2Proof.Machine

/-- The byte at an address; an address not listed reads as 0x00 (20_memory.md R30, R31). -/
def Memory.read : Memory → Nat → Byte
  | [], _ => 0#8
  | c :: m, a => if c.1 = a then c.2 else Memory.read m a

/-- List `(a, v)` at its place among rising addresses. -/
def Memory.insert : Memory → Nat → Byte → Memory
  | [], a, v => [(a, v)]
  | c :: m, a, v => if a < c.1 then (a, v) :: c :: m else c :: Memory.insert m a v

/-- Write one byte (20_memory.md R32). Writing 0x00, what an unlisted address reads as, unlists the address. -/
def Memory.write (m : Memory) (a : Nat) (v : Byte) : Memory :=
  if v = 0#8 then m.filter (fun c => decide (c.1 ≠ a))
  else Memory.insert (m.filter (fun c => decide (c.1 ≠ a))) a v

/-- The canonical form of memory: addresses 0 to 255, strictly rising, no zero byte listed. Log 6. -/
abbrev Memory.wf (m : Memory) : Prop :=
  m.Pairwise (fun c d => c.1 < d.1) ∧ ∀ c ∈ m, c.1 < Config.memSize ∧ c.2 ≠ 0#8

/-- `MemRead(addr, 1)` (20_memory.md R31): the address is in range by its type, so no access outside 0 to 255 is ever
made (R33). -/
def State.memRead (s : State) (addr : Addr) : Byte :=
  s.mem.read addr.toNat

/-- `MemWrite(addr, 1, v)` (20_memory.md R32): that one byte and nothing else. -/
def State.memWrite (s : State) (addr : Addr) (v : Byte) : State :=
  { s with mem := s.mem.write addr.toNat v }

/-- `x[r]` (10_state.md R11). -/
def State.reg (s : State) (r : Fin 8) : Byte :=
  s.x[r]

/-- `x[r] <- v` (10_state.md R11, R14): no register is hardwired. -/
def State.setReg (s : State) (r : Fin 8) (v : Byte) : State :=
  { s with x := s.x.set r v }

/-- SP_INDEX: register 7 is the stack pointer (10_state.md R12). -/
def spIndex : Fin 8 := 7

/-- The stack pointer `x[7]`. -/
def State.sp (s : State) : Byte :=
  s.reg spIndex

/-- `x[7] <- v`. -/
def State.setSp (s : State) (v : Byte) : State :=
  s.setReg spIndex v

/-- `pc <- target` (10_state.md R15). -/
def State.setPc (s : State) (target : PcWord) : State :=
  { s with pc := target }

/-- All three flags written (10_state.md R18). -/
def State.setFl (s : State) (fl : Flags) : State :=
  { s with fl := fl }

/-- `RUN <- r` (10_state.md R20). -/
def State.setRun (s : State) (r : Bool) : State :=
  { s with run := r }

/-- `FAULT <- f` (10_state.md R21). -/
def State.setFault (s : State) (f : FaultCode) : State :=
  { s with fault := f }

/-- `OUT <- OUT ++ [v]` (10_state.md R23). -/
def State.emit (s : State) (v : Byte) : State :=
  { s with out := s.out ++ [v] }

/-- `raise f` (60_exceptions.md R135), the one way a fault is taken: `FAULT <- f` and the step ends at once. No handler
address, no saved pc, no saved flags, no mode change. There is no return from it (R137): only reset leaves the Faulted
status. -/
def raise (f : FaultCode) (s : State) : Result :=
  .next (s.setFault f)

/-- The status of the core (10_state.md R22). -/
def State.status (s : State) : Status :=
  if s.fault = .noFault then (if s.run then .running else .halted) else .faulted s.fault

/-- The numeric code of a fault (60_exceptions.md R130). DESIGN CHOICE of the spec (D9), log 15. -/
def FaultCode.code : FaultCode → BitVec 3
  | .noFault => 0#3
  | .divideByZero => 1#3
  | .unsupportedOperation => 2#3
  | .addressOutOfRange => 3#3
  | .registerIndexOutOfRange => 4#3

end Sys2Proof.Machine
end

