-- ==== Sys2Proof/Machine/Flags.lean ====
section
/-! DEFINITION. The flag computation of CMP, the only writer of the flags (41_alu.md R94, 10_state.md R18), and the
layout the inspection port shows (10_state.md R17). -/

namespace Sys2Proof.Machine

/-- All flags clear. -/
def Flags.clear : Flags := ⟨false, false, false⟩

/-- The flags after comparing `u` with `v` as unsigned values: all cleared, then exactly one set (41_alu.md R94). -/
def compareFlags (u v : Byte) : Flags :=
  if u.toNat < v.toNat then { Flags.clear with l := true }
  else if u.toNat > v.toNat then { Flags.clear with g := true }
  else { Flags.clear with e := true }

/-- `FL[2:0] = {L, G, E}` (10_state.md R17): L is bit 2, G bit 1, E bit 0. DESIGN CHOICE of the spec (D12), not
observable by a program, log 15. -/
def Flags.bits (f : Flags) : BitVec 3 :=
  BitVec.ofBool f.l ++ BitVec.ofBool f.g ++ BitVec.ofBool f.e

/-- The invariant of the flags from reset on: no two set at once (10_state.md R19). -/
abbrev Flags.atMostOne (f : Flags) : Prop :=
  f.l.toNat + f.g.toNat + f.e.toNat ≤ 1

/-- Exactly one flag set: what holds after every CMP (10_state.md R19). -/
abbrev Flags.exactlyOne (f : Flags) : Prop :=
  f.l.toNat + f.g.toNat + f.e.toNat = 1

end Sys2Proof.Machine
end

