-- ==== Sys2Proof/Machine/Operands.lean ====
section
/-! DEFINITION. The operand forms (30_encoding.md R53, R63) and the register-index check, stage 4 of the step
(40_fetch_dispatch.md R76), as shared operations over the meaning that follows. -/

namespace Sys2Proof.Machine

/-- The register an operand byte names: all eight bits take part, 8 to 255 name none (30_encoding.md R62). -/
def regIndex? (b : Byte) : Option (Fin 8) :=
  if h : b.toNat < 8 then some ⟨b.toNat, h⟩ else none

/-- The operand byte that names register `r`. -/
def regByte (r : Fin 8) : Byte :=
  BitVec.ofNat 8 r.val

/-- One register operand (formats R and RI): the check comes before every effect of the instruction (R76). -/
def withReg (a : Byte) (s : State) (act : Fin 8 → Result) : Result :=
  match regIndex? a with
  | some r => act r
  | none => raise .registerIndexOutOfRange s

/-- Two register operands (format RR): operand a is checked first, then operand b (R76). -/
def withRegs (a b : Byte) (s : State) (act : Fin 8 → Fin 8 → Result) : Result :=
  withReg a s fun ra => withReg b s fun rb => act ra rb

/-- A jump target: the content of a register, zero-extended to the width of `pc` (44_control_flow.md R120). -/
def State.jumpTarget (s : State) (r : Fin 8) : PcWord :=
  (s.reg r).setWidth 9

end Sys2Proof.Machine
end

