-- ==== Sys2Proof/Machine/Alu.lean ====
section
/-! DEFINITION. The ALU instructions ADD, MUL, DIV, CMP (41_alu.md). All operands are registers read as unsigned 8-bit
integers; the arithmetic is exact on natural numbers and narrowed at the end (R90, R95). -/

namespace Sys2Proof.Machine

/-- The sum modulo 256; no carry is recorded (41_alu.md R91). -/
def aluAdd (u v : Byte) : Byte :=
  BitVec.ofNat 8 (u.toNat + v.toNat)

/-- The low byte of the 16-bit product (41_alu.md R92). -/
def aluMul (u v : Byte) : Byte :=
  BitVec.ofNat 8 (u.toNat * v.toNat)

/-- The quotient rounded down; used with a non-zero divisor only (41_alu.md R93). -/
def aluDiv (u v : Byte) : Byte :=
  BitVec.ofNat 8 (u.toNat / v.toNat)

/-- ADD (41_alu.md R91). -/
def execAdd (a b : Byte) (s : State) : Result :=
  withRegs a b s fun ra rb => .next (s.setReg ra (aluAdd (s.reg ra) (s.reg rb)))

/-- MUL (41_alu.md R92). -/
def execMul (a b : Byte) (s : State) : Result :=
  withRegs a b s fun ra rb => .next (s.setReg ra (aluMul (s.reg ra) (s.reg rb)))

/-- DIV (41_alu.md R93): `DivideByZero` when the divisor is 0, whatever the dividend is, nothing written. -/
def execDiv (a b : Byte) (s : State) : Result :=
  withRegs a b s fun ra rb =>
    if s.reg rb = 0#8 then raise .divideByZero s
    else .next (s.setReg ra (aluDiv (s.reg ra) (s.reg rb)))

/-- CMP (41_alu.md R94): all three flags written, no register. -/
def execCmp (a b : Byte) (s : State) : Result :=
  withRegs a b s fun ra rb => .next (s.setFl (compareFlags (s.reg ra) (s.reg rb)))

end Sys2Proof.Machine
end

