-- ==== Sys2Proof/Machine/Control.lean ====
section
/-! DEFINITION. The control-flow instructions JMP, JEQ, JNE (44_control_flow.md): absolute, register-indirect. The
register index is checked whether or not the jump is taken (40_fetch_dispatch.md R76). -/

namespace Sys2Proof.Machine

/-- Take the jump if `taken`, else keep the pre-advanced `pc` (44_control_flow.md R120). -/
def State.jumpIf (s : State) (taken : Bool) (r : Fin 8) : State :=
  if taken then s.setPc (s.jumpTarget r) else s

/-- JMP (44_control_flow.md R121). -/
def execJmp (a : Byte) (s : State) : Result :=
  withReg a s fun ra => .next (s.jumpIf true ra)

/-- JEQ (44_control_flow.md R122): taken when `E` is set. -/
def execJeq (a : Byte) (s : State) : Result :=
  withReg a s fun ra => .next (s.jumpIf s.fl.e ra)

/-- JNE (44_control_flow.md R123): taken when `E` is clear. -/
def execJne (a : Byte) (s : State) : Result :=
  withReg a s fun ra => .next (s.jumpIf (!s.fl.e) ra)

end Sys2Proof.Machine
end

