-- ==== Sys2Proof/Machine/DataIo.lean ====
section
/-! DEFINITION. The data-movement, output and halt instructions LDI, PRN, HLT (42_data_io.md). -/

namespace Sys2Proof.Machine

/-- LDI (42_data_io.md R100): every byte value is a legal immediate. -/
def execLdi (a imm : Byte) (s : State) : Result :=
  withReg a s fun ra => .next (s.setReg ra imm)

/-- PRN (42_data_io.md R101): the byte is emitted; its decimal text is the presentation layer's, log 17. -/
def execPrn (a : Byte) (s : State) : Result :=
  withReg a s fun ra => .next (s.emit (s.reg ra))

/-- HLT (42_data_io.md R102). -/
def execHlt (s : State) : Result :=
  .next (s.setRun false)

end Sys2Proof.Machine
end

