-- ==== Sys2Proof/Machine/Stack.lean ====
section
/-! DEFINITION. The stack instructions PUSH and POP (43_stack.md): pre-decrement and post-increment of `x[7]`, no
wrap-around at either end (R110). -/

namespace Sys2Proof.Machine

/-- The address PUSH writes: one below the stack pointer (43_stack.md R110). -/
def State.pushAddr (s : State) : Addr :=
  s.sp - 1#8

/-- The PUSH of a register once the stack pointer is known to be above 0: decrement, then write the register as it is
AFTER the decrement, so `PUSH R7` stores the decremented pointer (43_stack.md R111; the spec's decision D17, log 13). -/
def State.pushReg (s : State) (r : Fin 8) : State :=
  let s1 := s.setSp s.pushAddr
  s1.memWrite s1.sp (s1.reg r)

/-- The value `x[7]` would have after a POP into register `r`, 1 to 256: for register 7 the loaded byte lands first and
is then incremented (43_stack.md R112; D17, log 13). -/
def State.poppedSp (s : State) (r : Fin 8) : Nat :=
  (if r = spIndex then s.memRead s.sp else s.sp).toNat + 1

/-- PUSH (43_stack.md R111): `AddressOutOfRange` when `x[7] = 0`, nothing changed. -/
def execPush (a : Byte) (s : State) : Result :=
  withReg a s fun ra =>
    if s.sp = 0#8 then raise .addressOutOfRange s
    else .next (s.pushReg ra)

/-- POP (43_stack.md R112): `AddressOutOfRange` when the incremented pointer would be 256, nothing changed. -/
def execPop (a : Byte) (s : State) : Result :=
  withReg a s fun ra =>
    if s.poppedSp ra > 255 then raise .addressOutOfRange s
    else .next ((s.setReg ra (s.memRead s.sp)).setSp (BitVec.ofNat 8 (s.poppedSp ra)))

end Sys2Proof.Machine
end

