-- ==== Sys2Proof/Syntax.lean ====
section
/-! DEFINITION. The instructions of the core (30_encoding.md R55), one constructor per row of the opcode table. Operand
bytes are kept whole, as fetched: "All eight bits of the byte take part: the index is not masked to three bits" (R53). -/

namespace Sys2Proof

/-- The twelve instructions, in the order of the opcode table. `a` and `b` are operand bytes read as
register indices, `imm` is the 8-bit immediate. -/
inductive Instr where
  /-- `ADD Ra,Rb` (41_alu.md R91). -/
  | add (a b : Byte)
  /-- `MUL Ra,Rb` (41_alu.md R92). -/
  | mul (a b : Byte)
  /-- `DIV Ra,Rb` (41_alu.md R93). -/
  | div (a b : Byte)
  /-- `CMP Ra,Rb` (41_alu.md R94). -/
  | cmp (a b : Byte)
  /-- `LDI Ra,imm` (42_data_io.md R100). -/
  | ldi (a imm : Byte)
  /-- `PRN Ra` (42_data_io.md R101). -/
  | prn (a : Byte)
  /-- `HLT` (42_data_io.md R102). -/
  | hlt
  /-- `PUSH Ra` (43_stack.md R111). -/
  | push (a : Byte)
  /-- `POP Ra` (43_stack.md R112). -/
  | pop (a : Byte)
  /-- `JMP Ra` (44_control_flow.md R121). -/
  | jmp (a : Byte)
  /-- `JEQ Ra` (44_control_flow.md R122). -/
  | jeq (a : Byte)
  /-- `JNE Ra` (44_control_flow.md R123). -/
  | jne (a : Byte)
  deriving DecidableEq, Repr

/-- The four instruction formats (30_encoding.md R63). -/
inductive Format where
  /-- No operand: HLT. -/
  | z
  /-- One register: PRN, PUSH, POP, JMP, JEQ, JNE. -/
  | r
  /-- Two registers: ADD, MUL, DIV, CMP. -/
  | rr
  /-- Register and immediate: LDI. -/
  | ri
  deriving DecidableEq, Repr

/-- The three bytes the fetch unit reads in every step (10_state.md R28): they live for one step only. -/
structure Fetched where
  /-- `IR`, the opcode byte at `pc`. -/
  ir : Byte
  /-- `OPA`, the byte at `pc + 1`. -/
  opa : Byte
  /-- `OPB`, the byte at `pc + 2`. -/
  opb : Byte
  deriving DecidableEq, Repr

end Sys2Proof
end

