-- ==== Sys2Proof/WellFormed.lean ====
section
/-! DEFINITION. Which instructions are well formed: every operand byte that the format calls a register index is 0 to 7
(30_encoding.md R62, R63). The immediate of LDI is never checked. -/

namespace Sys2Proof

/-- The format of each instruction (30_encoding.md R63). -/
def Instr.format : Instr → Format
  | .add _ _ => .rr
  | .mul _ _ => .rr
  | .div _ _ => .rr
  | .cmp _ _ => .rr
  | .ldi _ _ => .ri
  | .prn _ => .r
  | .hlt => .z
  | .push _ => .r
  | .pop _ => .r
  | .jmp _ => .r
  | .jeq _ => .r
  | .jne _ => .r

/-- The bytes an instruction of the format takes: the opcode and its operand bytes (30_encoding.md R63). -/
def Format.length : Format → Nat
  | .z => 1
  | .r => 2
  | .rr => 3
  | .ri => 3

/-- The operand bytes that the format calls register indices, operand a first (40_fetch_dispatch.md R76). -/
def Instr.regOperands : Instr → List Byte
  | .add a b => [a, b]
  | .mul a b => [a, b]
  | .div a b => [a, b]
  | .cmp a b => [a, b]
  | .ldi a _ => [a]
  | .prn a => [a]
  | .hlt => []
  | .push a => [a]
  | .pop a => [a]
  | .jmp a => [a]
  | .jeq a => [a]
  | .jne a => [a]

/-- A well-formed instruction names registers 0 to 7 only (30_encoding.md R62). -/
abbrev Instr.WellFormed (i : Instr) : Prop :=
  ∀ r ∈ i.regOperands, r.toNat < 8

end Sys2Proof
end

