-- ==== Sys2Proof/Decode.lean ====
section
/-! DEFINITION. The decoder, total on any three fetched bytes and rejecting an unassigned opcode by name
(30_encoding.md, 40_fetch_dispatch.md R73 to R75), and after it the encoder, written from the same formats (R63). -/

namespace Sys2Proof

/-- The default values of the parameters `OPC_*` (30_encoding.md R55). UNVERIFIED, unsafe: the spec's own decision
D1, log 1; everything below is stated for any record, these values are what the machine runs with. -/
def defaultOpcodes : Opcodes where
  add := 0xA0#8
  mul := 0xA2#8
  div := 0xA3#8
  cmp := 0xA7#8
  ldi := 0x82#8
  prn := 0x47#8
  hlt := 0x01#8
  push := 0x45#8
  pop := 0x46#8
  jmp := 0x54#8
  jeq := 0x55#8
  jne := 0x56#8

/-- The operand count `IR[7:6]` (30_encoding.md R51). -/
def operandCount (ir : Byte) : Nat :=
  (ir.extractLsb' 6 2).toNat

/-- The length the decoder tells from the first byte alone, `1 + IR[7:6]` (30_encoding.md R52); 4 for an
unassigned opcode of operand count 3 (90_conflicts.md C2). -/
def instrLength (ir : Byte) : Nat :=
  1 + operandCount ir

/-- The class bit `IR[5]`: set for the ALU class (30_encoding.md R51). -/
def isAluClass (ir : Byte) : Bool :=
  ir.getLsbD 5

/-- Why the decoder rejects the fetched bytes. -/
inductive DecodeError where
  /-- The opcode byte is none of the twelve (30_encoding.md R57): the step then raises `UnsupportedOperation`. -/
  | unsupportedOperation (opcode : Byte)
  deriving DecidableEq, Repr

/-- The ALU recognises four opcodes (40_fetch_dispatch.md R74). -/
def decodeAlu (o : Opcodes) (f : Fetched) : Option Instr :=
  if f.ir = o.add then some (.add f.opa f.opb)
  else if f.ir = o.mul then some (.mul f.opa f.opb)
  else if f.ir = o.div then some (.div f.opa f.opb)
  else if f.ir = o.cmp then some (.cmp f.opa f.opb)
  else none

/-- The handler table has eight entries, looked up by the full opcode byte (40_fetch_dispatch.md R75). -/
def decodeHandler (o : Opcodes) (f : Fetched) : Option Instr :=
  if f.ir = o.ldi then some (.ldi f.opa f.opb)
  else if f.ir = o.prn then some (.prn f.opa)
  else if f.ir = o.hlt then some .hlt
  else if f.ir = o.push then some (.push f.opa)
  else if f.ir = o.pop then some (.pop f.opa)
  else if f.ir = o.jmp then some (.jmp f.opa)
  else if f.ir = o.jeq then some (.jeq f.opa)
  else if f.ir = o.jne then some (.jne f.opa)
  else none

/-- Class dispatch on bit 5 (40_fetch_dispatch.md R73), then the ALU or the handler table; an opcode neither knows
is rejected by name. -/
def decodeWith (o : Opcodes) (f : Fetched) : Except DecodeError Instr :=
  match if isAluClass f.ir then decodeAlu o f else decodeHandler o f with
  | some i => .ok i
  | none => .error (.unsupportedOperation f.ir)

/-- The decoder at the default opcodes. -/
def decode (f : Fetched) : Except DecodeError Instr :=
  decodeWith defaultOpcodes f

/-- The bytes of an instruction, the opcode first (30_encoding.md R50, R63), for the opcodes `o`. -/
def encodeWith (o : Opcodes) : Instr → List Byte
  | .add a b => [o.add, a, b]
  | .mul a b => [o.mul, a, b]
  | .div a b => [o.div, a, b]
  | .cmp a b => [o.cmp, a, b]
  | .ldi a imm => [o.ldi, a, imm]
  | .prn a => [o.prn, a]
  | .hlt => [o.hlt]
  | .push a => [o.push, a]
  | .pop a => [o.pop, a]
  | .jmp a => [o.jmp, a]
  | .jeq a => [o.jeq, a]
  | .jne a => [o.jne, a]

/-- The encoder at the default opcodes. -/
def encode (i : Instr) : List Byte :=
  encodeWith defaultOpcodes i

/-- What the fetch unit reads from a sequence of bytes at the program counter: the first three, zero where the
sequence has ended (unwritten memory is zero, 10_state.md R27). -/
def Fetched.ofBytes (bs : List Byte) : Fetched where
  ir := bs.getD 0 0#8
  opa := bs.getD 1 0#8
  opb := bs.getD 2 0#8

/-- The bytes of an instruction whose bits are `w` as spec/opcode_table.json numbers them: byte 0 is bits 7:0, byte 1
bits 15:8, byte 2 bits 23:16; every bit from `nbits` up is 0. Bytes lie in ascending address order (20_memory.md R35). -/
def tableBytes (nbits w : Nat) : Fetched where
  ir := BitVec.ofNat 8 (w % 2 ^ nbits)
  opa := BitVec.ofNat 8 (w % 2 ^ nbits / 256)
  opb := BitVec.ofNat 8 (w % 2 ^ nbits / 65536)

/-- The instruction the decoder reads from the table's word; `none` where it rejects. -/
def decodeTableWord (nbits w : Nat) : Option Instr :=
  match decode (tableBytes nbits w) with
  | .ok i => some i
  | .error _ => none

end Sys2Proof
end

