-- ==== Sys2Proof/Machine/Fetch.lean ====
section
/-! DEFINITION. Stages 1 and 2 of the step, fetch and pre-advance (40_fetch_dispatch.md R71, R72), and the placing of an
instruction where the next step fetches it. -/

namespace Sys2Proof.Machine

/-- The memory address a program counter value names; used for values 0 to 255 only. -/
def pcAddr (pc : PcWord) : Addr :=
  pc.setWidth 8

/-- The three unconditional reads at `pc`, `pc + 1`, `pc + 2` (40_fetch_dispatch.md R71). -/
def State.fetchedAt (s : State) (pc : PcWord) : Fetched where
  ir := s.memRead (pcAddr pc)
  opa := s.memRead (pcAddr (pc + 1#9))
  opb := s.memRead (pcAddr (pc + 2#9))

/-- Stage 1: the three bytes at `pc`, or none when `pc > 253`, where nothing is read (40_fetch_dispatch.md R71). -/
def State.fetch? (s : State) : Option Fetched :=
  if s.pc.toNat > 253 then none else some (s.fetchedAt s.pc)

/-- Stage 2: `pc <- pc + 1 + IR[7:6]`, a 9-bit result, for every fetched opcode, assigned or not
(40_fetch_dispatch.md R72). -/
def State.preAdvance (s : State) (ir : Byte) : State :=
  s.setPc (s.pc + BitVec.ofNat 9 (instrLength ir))

/-- Store three bytes where the next step fetches. -/
def State.placeAt (s : State) (pc : PcWord) (f : Fetched) : State :=
  ((s.memWrite (pcAddr pc) f.ir).memWrite (pcAddr (pc + 1#9)) f.opa).memWrite (pcAddr (pc + 2#9)) f.opb

/-- `s` with the three bytes placed so that the very next step fetches exactly them. What the fetch needs and nothing
else: the status is Running, and a `pc` from which nothing can be fetched (above 253) becomes 0. Log 8. -/
def State.placeInstr (s : State) (f : Fetched) : State :=
  let pc := if s.pc.toNat > 253 then 0#9 else s.pc
  (((s.setRun true).setFault .noFault).setPc pc).placeAt pc f

end Sys2Proof.Machine
end

