-- ==== Sys2Proof/Machine/Cycle.lean ====
section
/-! DEFINITION. The step assembled (40_fetch_dispatch.md section 2) and the memory accesses it makes (20_memory.md R46). -/

namespace Sys2Proof.Machine

/-- Stages 2 to 5 on three fetched bytes: the pre-advance, the class dispatch, then the instruction's meaning, which
begins with the index check (40_fetch_dispatch.md R72 to R77). -/
def State.runFetched (o : Opcodes) (f : Fetched) (s : State) : Result :=
  match decodeWith o f with
  | .ok i => exec i (s.preAdvance f.ir)
  | .error _ => raise .unsupportedOperation (s.preAdvance f.ir)

/-- One step for the opcodes `o` (40_fetch_dispatch.md section 2). A core that is not Running "performs nothing and its
state does not change" (R70): DEDUCED, the answer is the same state, log 4. -/
def stepWith (o : Opcodes) (s : State) : Result :=
  if s.status = .running then
    match s.fetch? with
    | none => raise .addressOutOfRange s
    | some f => s.runFetched o f
  else .next s

/-- One one-byte memory access of the core (20_memory.md R37). -/
inductive Access where
  | read (addr : Addr)
  | write (addr : Addr)
  deriving DecidableEq, Repr

/-- The data access of an instruction that raises no fault: PUSH writes the byte below the stack pointer, POP reads the
byte at it, no other instruction accesses memory (20_memory.md R46). -/
def dataAccesses (i : Instr) (s : State) : List Access :=
  match i with
  | .push a => if a.toNat < 8 ∧ s.sp ≠ 0#8 then [.write (s.sp - 1#8)] else []
  | .pop a => if a.toNat < 8 then [.read s.sp] else []
  | .add _ _ => []
  | .mul _ _ => []
  | .div _ _ => []
  | .cmp _ _ => []
  | .ldi _ _ => []
  | .prn _ => []
  | .hlt => []
  | .jmp _ => []
  | .jeq _ => []
  | .jne _ => []

/-- The accesses of a step, in order: the three fetch reads, then the data access (20_memory.md R41, R46). A POP that
faults makes its read too: 43_stack.md R112 reads before it tests the pointer. -/
def stepAccesses (o : Opcodes) (s : State) : List Access :=
  if s.status = .running then
    match s.fetch? with
    | none => []
    | some f =>
      [.read (pcAddr s.pc), .read (pcAddr (s.pc + 1#9)), .read (pcAddr (s.pc + 2#9))] ++
        match decodeWith o f with
        | .ok i => dataAccesses i s
        | .error _ => []
  else []

end Sys2Proof.Machine
end

