-- ==== Sys2Proof/Machine/Step.lean ====
section
/-! DEFINITION. The step of the machine, at the default opcodes, and the placing of a table word for the next step. -/

namespace Sys2Proof.Machine

/-- One step (40_fetch_dispatch.md section 2). -/
def step (s : State) : Host.Outcome State Fault Refusal :=
  stepWith defaultOpcodes s

/-- `s` with the instruction whose bits are `w` stored where `step` fetches next. Log 8. -/
def State.withFetchWord (s : State) (nbits w : Nat) : State :=
  s.placeInstr (tableBytes nbits w)

end Sys2Proof.Machine
end

