-- ==== Sys2Proof/Machine/Loader.lean ====
section
/-! DEFINITION. The loader's side: placing an image (70_reset_and_hazards.md R161, R162), the object-file text it comes
from (30_encoding.md R60), and the text the presentation layer makes of the output (42_data_io.md R101). The text side
is outside the core (00_scope.md R3); it is modelled because R60 says it defines the initial memory contents. -/

namespace Sys2Proof.Machine

/-- The bytes of an image in ascending addresses from `base` (70_reset_and_hazards.md R161). -/
def State.loadFrom (s : State) : Nat → List Byte → State
  | _, [] => s
  | base, b :: bs => (s.memWrite (BitVec.ofNat 8 base) b).loadFrom (base + 1) bs

/-- Load an image at address 0; one of more than 256 bytes is refused whole (70_reset_and_hazards.md R161; D13). -/
def State.loadImage (s : State) (image : List Byte) : Option State :=
  if image.length ≤ Config.memSize then some (s.loadFrom 0 image) else none

/-- The launch state, a function of the image alone (70_reset_and_hazards.md R162). -/
def launch (image : List Byte) : Option State :=
  State.reset.loadImage image

/-- The lines of a text. -/
def textLines : List Char → List (List Char)
  | [] => [[]]
  | c :: cs =>
    if c = '\n' then [] :: textLines cs
    else match textLines cs with
      | [] => [[c]]
      | l :: ls => (c :: l) :: ls

/-- White space inside a line. DEDUCED, log 11. -/
def isBlank (c : Char) : Bool :=
  c = ' ' || c = '\t' || c = '\r'

/-- What is left of a line without its comment and the blanks around the literal (30_encoding.md R60). -/
def lineBody (l : List Char) : List Char :=
  (((l.takeWhile (· ≠ '#')).dropWhile isBlank).reverse.dropWhile isBlank).reverse

/-- The value of a base-2 literal read so far as `acc`; none if a character is no binary digit. -/
def binaryValue (acc : Nat) : List Char → Option Nat
  | [] => some acc
  | c :: cs =>
    if c = '0' then binaryValue (2 * acc) cs
    else if c = '1' then binaryValue (2 * acc + 1) cs
    else none

/-- A line: `some none` when it is ignored, `some (some b)` for the byte it stores, `none` when it is no 8-bit binary
literal, for which no launch state exists (30_encoding.md R60; 93_implementation_defined.md U13; log 11). -/
def parseLine (l : List Char) : Option (Option Byte) :=
  match lineBody l with
  | [] => some none
  | body =>
    match binaryValue 0 body with
    | some n => if n < 256 then some (some (BitVec.ofNat 8 n)) else none
    | none => none

/-- The bytes of the lines, in file order; none if any line is refused. -/
def parseLines : List (List Char) → Option (List Byte)
  | [] => some []
  | l :: ls =>
    match parseLine l, parseLines ls with
    | some (some b), some bs => some (b :: bs)
    | some none, some bs => some bs
    | _, _ => none

/-- The image an object file holds (30_encoding.md R60). -/
def parseObject (text : List Char) : Option (List Byte) :=
  parseLines (textLines text)

/-- The text of a run: the decimal numeral of each emitted byte, one per line (42_data_io.md R101; D11, log 17). -/
def State.outputLines (s : State) : List String :=
  s.out.map fun v => toString v.toNat

end Sys2Proof.Machine
end

