-- ==== Sys2Proof/Machine/Block.lean ====
section
/-! DEFINITION. The block around the core and its external interface (70_reset_and_hazards.md R171, R172), by the abstract
events of R171's last column: reset, load, a step, and what the output and inspection ports show. Log 10. -/

namespace Sys2Proof.Machine

/-- The block: the core, and whether the load port is still open ("dead once `load_en` has fallen until the next reset",
70_reset_and_hazards.md R171). -/
structure Block where
  core : State
  loadOpen : Bool
  deriving DecidableEq, Repr

/-- The events that reach the block (70_reset_and_hazards.md R171). -/
inductive Event where
  /-- `rst`: the reset state (R160). -/
  | reset
  /-- One byte through the load port while `load_en` is 1 (R161): the core takes no step. -/
  | load (addr data : Byte)
  /-- `load_en` has fallen: from here on the core may take its first step (R163). -/
  | release
  /-- One step of the core. -/
  | step
  deriving DecidableEq, Repr

/-- The block right after reset, the load port open (70_reset_and_hazards.md R163). -/
def Block.reset : Block where
  core := State.reset
  loadOpen := true

/-- What one event does. A load on a dead port and a step while the port is open do nothing (70_reset_and_hazards.md
R163, R171). -/
def Block.apply (o : Opcodes) (b : Block) (ev : Event) : Host.Outcome Block Fault Refusal :=
  match ev with
  | .reset => .next Block.reset
  | .load addr data => .next (if b.loadOpen then { b with core := b.core.memWrite addr data } else b)
  | .release => .next { b with loadOpen := false }
  | .step =>
    if b.loadOpen then .next b
    else match stepWith o b.core with
      | .next s => .next { b with core := s }
      | .fault r => .fault r
      | .refused r => .refused r

/-- A sequence of events, in order. -/
def Block.applyAll (o : Opcodes) : List Event → Block → Host.Outcome Block Fault Refusal
  | [], b => .next b
  | ev :: evs, b =>
    match b.apply o ev with
    | .next c => Block.applyAll o evs c
    | .fault r => .fault r
    | .refused r => .refused r

/-- The load events that hand over an image from address `base` on, one byte each in ascending addresses
(70_reset_and_hazards.md R161). -/
def loadEvents : Nat → List Byte → List Event
  | _, [] => []
  | base, b :: bs => .load (BitVec.ofNat 8 base) b :: loadEvents (base + 1) bs

/-- The signals that show the core's status and, for observation only, its registers (70_reset_and_hazards.md R171). -/
structure Outputs where
  halted : Bool
  fault : BitVec 3
  dbgPc : PcWord
  dbgX : Vector Byte 8
  dbgFl : BitVec 3
  deriving DecidableEq, Repr

/-- `halted` is `RUN = 0`; `fault` is the code of `FAULT`; the inspection ports show the state (70_reset_and_hazards.md
R171). -/
def State.outputs (s : State) : Outputs where
  halted := !s.run
  fault := s.fault.code
  dbgPc := s.pc
  dbgX := s.x
  dbgFl := s.fl.bits

/-- The bytes the output port transferred between two states of a run (`out_valid` with `out_data`,
70_reset_and_hazards.md R171). -/
def transferred (before after : State) : List Byte :=
  after.out.drop before.out.length

end Sys2Proof.Machine
end

