-- ==== Sys2Proof/Safety.lean ====
section
/-! DEFINITION. What counts as a safe run, in the terms the statements use: the invariant of the states a run reaches,
the end of a run (70_reset_and_hazards.md R166), and sequences of instructions. -/

namespace Sys2Proof.Machine

/-- The invariant of every state a run reaches: memory in its canonical form (20_memory.md R30), `pc` at most 257
(10_state.md R16), no two flags set at once (R19), and never `RUN = 0` together with a fault (R22). -/
abbrev State.Inv (s : State) : Prop :=
  s.mem.wf ∧ s.pc.toNat ≤ 257 ∧ s.fl.atMostOne ∧ (s.run = true ∨ s.fault = .noFault)

/-- A safe state: no fault has been recorded (93_implementation_defined.md U16). -/
abbrev State.Safe (s : State) : Prop :=
  s.fault = .noFault

/-- `n` steps, stopping at a fault or a refusal of the model (70_reset_and_hazards.md R162, 40_fetch_dispatch.md R78). -/
def runSteps : Nat → State → Result
  | 0, s => .next s
  | n + 1, s =>
    match step s with
    | .next t => runSteps n t
    | .fault r => .fault r
    | .refused r => .refused r

/-- The run from `s` ends after `n` steps in `t`: the first state whose status is not Running (70_reset_and_hazards.md
R166). -/
def EndsIn (s : State) (n : Nat) (t : State) : Prop :=
  runSteps n s = .next t ∧ t.status ≠ .running ∧
    ∀ k < n, ∃ u, runSteps k s = .next u ∧ u.status = .running

/-- A run ends cleanly: status Halted (70_reset_and_hazards.md R166 "halt cleanly"). -/
def HaltsCleanly (s : State) (n : Nat) (t : State) : Prop :=
  EndsIn s n t ∧ t.status = .halted

/-- The meanings of a sequence of instructions, one after another. -/
def execAll : List Instr → State → Result
  | [], s => .next s
  | i :: is, s =>
    match exec i s with
    | .next t => execAll is t
    | .fault r => .fault r
    | .refused r => .refused r

/-- The bytes `bs` lie in memory from `pc` on, in ascending addresses (30_encoding.md R50). -/
def State.Holds (s : State) (bs : List Byte) : Prop :=
  ∀ k, ∀ h : k < bs.length, s.mem.read (s.pc.toNat + k) = bs[k]

/-- The bytes `bs` run as the instruction `i`: a Running core that has them at `pc` (`pc` at most 253, so that three bytes
can be fetched) does in one step what `i` means from the state whose `pc` is advanced by their number
(40_fetch_dispatch.md R71, R72, R77). -/
def RunsAs (o : Opcodes) (bs : List Byte) (i : Instr) : Prop :=
  ∀ s : State, s.status = .running → s.pc.toNat ≤ 253 → s.Holds bs →
    stepWith o s = exec i { s with pc := s.pc + BitVec.ofNat 9 bs.length }

/-- The fault an instruction of its own raises, once its register indices are in range (60_exceptions.md R139 item 4):
a zero divisor (41_alu.md R93), a stack pointer leaving 0 to 255 (43_stack.md R111, R112). -/
def ownFault (i : Instr) (s : State) : FaultCode :=
  match i with
  | .add _ _ => .noFault
  | .mul _ _ => .noFault
  | .div _ b => if ∃ r : Fin 8, regByte r = b ∧ s.reg r = 0#8 then .divideByZero else .noFault
  | .cmp _ _ => .noFault
  | .ldi _ _ => .noFault
  | .prn _ => .noFault
  | .hlt => .noFault
  | .push _ => if s.reg 7 = 0#8 then .addressOutOfRange else .noFault
  | .pop a =>
    if a = 7#8 then (if s.mem.read (s.reg 7).toNat = 255#8 then .addressOutOfRange else .noFault)
    else if s.reg 7 = 255#8 then .addressOutOfRange else .noFault
  | .jmp _ => .noFault
  | .jeq _ => .noFault
  | .jne _ => .noFault

/-- Every byte of memory reads the same in both states. -/
def SameMemory (s t : State) : Prop :=
  ∀ a : Nat, t.mem.read a = s.mem.read a

/-- Both states agree in everything but memory. -/
def SameButMemory (s t : State) : Prop :=
  t.x = s.x ∧ t.pc = s.pc ∧ t.fl = s.fl ∧ t.run = s.run ∧ t.fault = s.fault ∧ t.out = s.out

/-- What a fault of the core leaves: everything as it was but the pc and the fault code (60_exceptions.md R136). -/
def SameButPcAndFault (s t : State) : Prop :=
  SameMemory s t ∧ t.x = s.x ∧ t.fl = s.fl ∧ t.run = s.run ∧ t.out = s.out

end Sys2Proof.Machine
end

