-- ==== Sys2Proof/Certificates/Slice0/Obligations.lean ====
section
/-! DEFINITION. The statements about the model. A register operand is written `regByte r` with `r` in 0 to 7, which is
every operand byte that names a register; bytes of 8 and more are the subject of BadRegisterIndexRaises. Where a statement
rests on a decision of the spec (92_eei_decisions.md) its docstring names it. -/

open Sys2Proof Sys2Proof.Machine

/-! ### Encoding and decoding -/

/-- Words of all twelve instructions written out from 30_encoding.md R55 and R63, and four unassigned opcodes (R57). The
opcode values are the spec's decision D1. -/
def Obligations.SpecWordsDecode : Prop :=
  decode ⟨0b10100000#8, 3#8, 5#8⟩ = .ok (.add 3#8 5#8) ∧
  decode ⟨0b10100010#8, 0#8, 1#8⟩ = .ok (.mul 0#8 1#8) ∧
  decode ⟨0b10100011#8, 1#8, 0#8⟩ = .ok (.div 1#8 0#8) ∧
  decode ⟨0b10100111#8, 0#8, 2#8⟩ = .ok (.cmp 0#8 2#8) ∧
  decode ⟨0b10000010#8, 0#8, 42#8⟩ = .ok (.ldi 0#8 42#8) ∧
  decode ⟨0b01000111#8, 6#8, 1#8⟩ = .ok (.prn 6#8) ∧
  decode ⟨0b00000001#8, 255#8, 255#8⟩ = .ok .hlt ∧
  decode ⟨0b01000101#8, 7#8, 9#8⟩ = .ok (.push 7#8) ∧
  decode ⟨0b01000110#8, 1#8, 0#8⟩ = .ok (.pop 1#8) ∧
  decode ⟨0b01010100#8, 3#8, 0#8⟩ = .ok (.jmp 3#8) ∧
  decode ⟨0b01010101#8, 2#8, 0#8⟩ = .ok (.jeq 2#8) ∧
  decode ⟨0b01010110#8, 3#8, 0#8⟩ = .ok (.jne 3#8) ∧
  decode ⟨0x00#8, 0#8, 0#8⟩ = .error (.unsupportedOperation 0x00#8) ∧
  decode ⟨0xA8#8, 9#8, 9#8⟩ = .error (.unsupportedOperation 0xA8#8) ∧
  decode ⟨0xC5#8, 0#8, 0#8⟩ = .error (.unsupportedOperation 0xC5#8) ∧
  decode ⟨0x65#8, 0#8, 0#8⟩ = .error (.unsupportedOperation 0x65#8)

/-- For every opcode assignment that meets 30_encoding.md R56, every instruction with every operand, and whatever bytes
follow it: decoding its encoding gives it back. -/
def Obligations.DecodeAfterEncode : Prop :=
  ∀ o : Opcodes, o.WellFormed → ∀ (i : Instr) (rest : List Byte),
    decodeWith o (Fetched.ofBytes (encodeWith o i ++ rest)) = .ok i

/-- The other direction: what decodes is encoded by the very bytes it was decoded from, as many of them as bits 7:6 of
the first one tell (30_encoding.md R52). -/
def Obligations.EncodeAfterDecode : Prop :=
  ∀ o : Opcodes, o.WellFormed → ∀ (f : Fetched) (i : Instr), decodeWith o f = .ok i →
    encodeWith o i = [f.ir, f.opa, f.opb].take (1 + (f.ir.extractLsb' 6 2).toNat)

/-- The decoder rejects exactly the opcodes that are none of the twelve, whatever the operand bytes
(30_encoding.md R54, 40_fetch_dispatch.md R73 to R75). -/
def Obligations.DecoderRejectsExactlyUnassigned : Prop :=
  ∀ o : Opcodes, o.WellFormed → ∀ f : Fetched,
    decodeWith o f = .error (.unsupportedOperation f.ir) ↔ f.ir ∉ o.assigned

/-- 244 of the 256 opcode bytes are unassigned (30_encoding.md R57), for every assignment that meets R56. -/
def Obligations.UnassignedOpcodeCount : Prop :=
  ∀ o : Opcodes, o.WellFormed → ∀ a b : Byte,
    ((List.range 256).filter fun n =>
      decodeWith o ⟨BitVec.ofNat 8 n, a, b⟩ = .error (.unsupportedOperation (BitVec.ofNat 8 n))).length = 244

/-- Stages 2 to 5 are the same whatever the bytes beyond the instruction's length hold (40_fetch_dispatch.md R81). -/
def Obligations.UnusedFetchedBytesHaveNoInfluence : Prop :=
  ∀ o : Opcodes, o.WellFormed → ∀ (s : State) (ir a a' b b' : Byte),
    ((ir.extractLsb' 6 2).toNat ≤ 1 → s.runFetched o ⟨ir, a, b⟩ = s.runFetched o ⟨ir, a, b'⟩) ∧
    ((ir.extractLsb' 6 2).toNat = 0 → s.runFetched o ⟨ir, a, b⟩ = s.runFetched o ⟨ir, a', b'⟩)

/-! ### The step -/

/-- When the three bytes at `pc` decode to `i`, a step of a Running core is the meaning of `i` from the state whose `pc`
is advanced by `1 + IR[7:6]`, and the advance does not wrap (40_fetch_dispatch.md R71, R72, R77). -/
def Obligations.StepRunsDecodedInstruction : Prop :=
  ∀ (s : State) (i : Instr) (ir opa opb : Byte), s.status = .running → s.pc.toNat ≤ 253 →
    s.mem.read s.pc.toNat = ir → s.mem.read (s.pc.toNat + 1) = opa → s.mem.read (s.pc.toNat + 2) = opb →
    decode ⟨ir, opa, opb⟩ = .ok i →
    step s = exec i { s with pc := s.pc + 1#9 + (ir.extractLsb' 6 2).setWidth 9 } ∧
    (s.pc + 1#9 + (ir.extractLsb' 6 2).setWidth 9).toNat = s.pc.toNat + 1 + (ir.extractLsb' 6 2).toNat

/-- For every opcode assignment that meets R56: a Running core whose memory holds the encoding of `i` at `pc` runs `i`
with `pc` advanced by the encoding's length (40_fetch_dispatch.md R72, R77; 30_encoding.md R63). -/
def Obligations.StepRunsEncodedInstruction : Prop :=
  ∀ o : Opcodes, o.WellFormed → ∀ i : Instr, RunsAs o (encodeWith o i) i

/-- A fetch with `pc > 253` raises AddressOutOfRange and changes nothing else (40_fetch_dispatch.md R71; the spec's
decision D4), for every opcode assignment. -/
def Obligations.FetchPastEndRaises : Prop :=
  ∀ (o : Opcodes) (s : State), s.status = .running → s.pc.toNat > 253 →
    stepWith o s = .next { s with fault := .addressOutOfRange }

/-- An unassigned opcode raises UnsupportedOperation whatever follows it, after `pc` was advanced by `1 + IR[7:6]`
(60_exceptions.md R132). -/
def Obligations.UnassignedOpcodeRaises : Prop :=
  ∀ o : Opcodes, o.WellFormed → ∀ s : State, s.status = .running → s.pc.toNat ≤ 253 →
    s.mem.read s.pc.toNat ∉ o.assigned →
    stepWith o s = .next { s with
      pc := s.pc + 1#9 + ((s.mem.read s.pc.toNat).extractLsb' 6 2).setWidth 9
      fault := .unsupportedOperation }

/-- A core that is Halted or Faulted stays exactly as it is, however many steps are asked of it (40_fetch_dispatch.md
R70, 70_reset_and_hazards.md R165). The answer 'the same state' for 'no step' is the model's choice, log 4. -/
def Obligations.StoppedCoreNeverChanges : Prop :=
  ∀ (s : State) (n : Nat), s.status ≠ .running → runSteps n s = .next s

/-- Every step answers a next state: a fatal condition of the core is recorded in FAULT, it is no stop of the model
(60_exceptions.md R135; log 3). -/
def Obligations.StepAlwaysAnswersNext : Prop :=
  ∀ (o : Opcodes) (s : State), ∃ t, stepWith o s = .next t

/-! ### What each instruction does -/

/-- ADD (41_alu.md R91). -/
def Obligations.AddWritesSumModulo256 : Prop :=
  ∀ o : Opcodes, o.WellFormed → ∀ ra rb : Fin 8,
    RunsAs o [o.add, regByte ra, regByte rb] (.add (regByte ra) (regByte rb)) ∧
    ∀ s : State, ∃ v : Byte, v.toNat = ((s.reg ra).toNat + (s.reg rb).toNat) % 256 ∧
      exec (.add (regByte ra) (regByte rb)) s = .next { s with x := s.x.set ra v }

/-- MUL (41_alu.md R92). -/
def Obligations.MulWritesLowByteOfProduct : Prop :=
  ∀ o : Opcodes, o.WellFormed → ∀ ra rb : Fin 8,
    RunsAs o [o.mul, regByte ra, regByte rb] (.mul (regByte ra) (regByte rb)) ∧
    ∀ s : State, ∃ v : Byte, v.toNat = ((s.reg ra).toNat * (s.reg rb).toNat) % 256 ∧
      exec (.mul (regByte ra) (regByte rb)) s = .next { s with x := s.x.set ra v }

/-- DIV (41_alu.md R93): the quotient rounded down for a non-zero divisor; DivideByZero and nothing else for a zero one,
after which no further step acts; that such a step answers the same state is the model's choice, log 4. -/
def Obligations.DivWritesQuotientOrRaises : Prop :=
  ∀ o : Opcodes, o.WellFormed → ∀ ra rb : Fin 8,
    RunsAs o [o.div, regByte ra, regByte rb] (.div (regByte ra) (regByte rb)) ∧
    ∀ s : State,
      (s.reg rb ≠ 0#8 → ∃ v : Byte, v.toNat = (s.reg ra).toNat / (s.reg rb).toNat ∧
        exec (.div (regByte ra) (regByte rb)) s = .next { s with x := s.x.set ra v }) ∧
      (s.reg rb = 0#8 →
        exec (.div (regByte ra) (regByte rb)) s = .next { s with fault := .divideByZero } ∧
        stepWith o { s with fault := .divideByZero } = .next { s with fault := .divideByZero })

/-- CMP (41_alu.md R94): exactly one flag set, by the unsigned order, whatever the flags were; no register written. -/
def Obligations.CmpSetsExactlyOneFlag : Prop :=
  ∀ o : Opcodes, o.WellFormed → ∀ ra rb : Fin 8,
    RunsAs o [o.cmp, regByte ra, regByte rb] (.cmp (regByte ra) (regByte rb)) ∧
    ∀ s : State, ∃ f : Flags, exec (.cmp (regByte ra) (regByte rb)) s = .next { s with fl := f } ∧
      (f.l = true ↔ (s.reg ra).toNat < (s.reg rb).toNat) ∧
      (f.g = true ↔ (s.reg ra).toNat > (s.reg rb).toNat) ∧
      (f.e = true ↔ (s.reg ra).toNat = (s.reg rb).toNat) ∧
      f.l.toNat + f.g.toNat + f.e.toNat = 1

/-- LDI (42_data_io.md R100), for every register and every immediate. -/
def Obligations.LdiWritesImmediate : Prop :=
  ∀ o : Opcodes, o.WellFormed → ∀ (ra : Fin 8) (imm : Byte),
    RunsAs o [o.ldi, regByte ra, imm] (.ldi (regByte ra) imm) ∧
    ∀ s : State, exec (.ldi (regByte ra) imm) s = .next { s with x := s.x.set ra imm }

/-- PRN (42_data_io.md R101): the byte is appended to OUT. That the core emits the byte and not its text is the spec's
decision D11. -/
def Obligations.PrnAppendsRegister : Prop :=
  ∀ o : Opcodes, o.WellFormed → ∀ ra : Fin 8,
    RunsAs o [o.prn, regByte ra] (.prn (regByte ra)) ∧
    ∀ s : State, exec (.prn (regByte ra)) s = .next { s with out := s.out ++ [s.reg ra] }

/-- HLT (42_data_io.md R102): RUN is cleared, nothing else changes, the status of a core that was Running becomes Halted,
and no further step acts; that such a step answers the same state is the model's choice, log 4. -/
def Obligations.HltClearsRun : Prop :=
  ∀ o : Opcodes, o.WellFormed →
    RunsAs o [o.hlt] .hlt ∧
    ∀ s : State, exec .hlt s = .next { s with run := false } ∧
      (s.fault = .noFault → State.status { s with run := false } = .halted) ∧
      stepWith o { s with run := false } = .next { s with run := false }

/-- PUSH (43_stack.md R111) with a stack pointer above 0: the pointer one lower, the byte there the register as it is after
the decrement, every other register and byte as before. That PUSH R7 stores the decremented pointer is the spec's decision
D17. -/
def Obligations.PushStoresBelowStackPointer : Prop :=
  ∀ (ra : Fin 8) (s : State), s.reg 7 ≠ 0#8 →
    ∃ t, exec (.push (regByte ra)) s = .next t ∧
      (t.reg 7).toNat + 1 = (s.reg 7).toNat ∧ (∀ r : Fin 8, r ≠ 7 → t.reg r = s.reg r) ∧
      (∀ a : Nat, t.mem.read a = if a = (t.reg 7).toNat then t.reg ra else s.mem.read a) ∧
      t.pc = s.pc ∧ t.fl = s.fl ∧ t.run = s.run ∧ t.fault = s.fault ∧ t.out = s.out

/-- PUSH with the stack pointer 0 raises AddressOutOfRange and changes nothing else (43_stack.md R111; the spec's decision
D6). -/
def Obligations.PushAtZeroRaises : Prop :=
  ∀ (ra : Fin 8) (s : State), s.reg 7 = 0#8 →
    exec (.push (regByte ra)) s = .next { s with fault := .addressOutOfRange }

/-- POP (43_stack.md R112) into a register other than 7 with the stack pointer below 255, and into register 7 with the
popped byte below 255: the byte read at the stack pointer lands in the register, the pointer (for register 7, the loaded
byte) is one higher, nothing else changes. POP R7 is the spec's decision D17. -/
def Obligations.PopLoadsFromStackPointer : Prop :=
  ∀ s : State,
    (∀ ra : Fin 8, ra ≠ 7 → s.reg 7 ≠ 255#8 →
      exec (.pop (regByte ra)) s =
        .next { s with x := (s.x.set ra (s.mem.read (s.reg 7).toNat)).set 7 (s.reg 7 + 1#8) }) ∧
    (s.mem.read (s.reg 7).toNat ≠ 255#8 →
      exec (.pop (regByte 7)) s = .next { s with x := s.x.set 7 (s.mem.read (s.reg 7).toNat + 1#8) })

/-- POP whose incremented pointer would be 256 raises AddressOutOfRange and changes nothing else (43_stack.md R112; the
spec's decisions D6, D17). -/
def Obligations.PopPastTopRaises : Prop :=
  ∀ s : State,
    (∀ ra : Fin 8, ra ≠ 7 → s.reg 7 = 255#8 →
      exec (.pop (regByte ra)) s = .next { s with fault := .addressOutOfRange }) ∧
    (s.mem.read (s.reg 7).toNat = 255#8 →
      exec (.pop (regByte 7)) s = .next { s with fault := .addressOutOfRange })

/-- JMP (44_control_flow.md R121): `pc` is the register's value, zero-extended; nothing else changes. -/
def Obligations.JmpSetsPc : Prop :=
  ∀ o : Opcodes, o.WellFormed → ∀ ra : Fin 8,
    RunsAs o [o.jmp, regByte ra] (.jmp (regByte ra)) ∧
    ∀ s : State, ∃ p : PcWord, p.toNat = (s.reg ra).toNat ∧ exec (.jmp (regByte ra)) s = .next { s with pc := p }

/-- JEQ (44_control_flow.md R122): taken exactly when E is set, else `pc` keeps the pre-advanced value. -/
def Obligations.JeqJumpsWhenEqualSet : Prop :=
  ∀ o : Opcodes, o.WellFormed → ∀ ra : Fin 8,
    RunsAs o [o.jeq, regByte ra] (.jeq (regByte ra)) ∧
    ∀ s : State, ∃ p : PcWord, p.toNat = (if s.fl.e = true then (s.reg ra).toNat else s.pc.toNat) ∧
      exec (.jeq (regByte ra)) s = .next { s with pc := p }

/-- JNE (44_control_flow.md R123): taken exactly when E is clear, whatever L and G, else `pc` keeps the pre-advanced
value. -/
def Obligations.JneJumpsWhenEqualClear : Prop :=
  ∀ o : Opcodes, o.WellFormed → ∀ ra : Fin 8,
    RunsAs o [o.jne, regByte ra] (.jne (regByte ra)) ∧
    ∀ s : State, ∃ p : PcWord, p.toNat = (if s.fl.e = false then (s.reg ra).toNat else s.pc.toNat) ∧
      exec (.jne (regByte ra)) s = .next { s with pc := p }

/-! ### Frames -/

/-- What ADD, MUL, DIV, LDI leave unchanged, for every operand byte: all registers but the destination, all flags, the pc,
RUN, OUT, every byte of memory; FAULT unless an index is out of range or DIV's divisor is 0. -/
def Obligations.RegisterWriterFrame : Prop :=
  ∀ (i : Instr) (a b : Byte), i = .add a b ∨ i = .mul a b ∨ i = .div a b ∨ i = .ldi a b →
    ∀ s t : State, exec i s = .next t →
      (∀ r : Fin 8, regByte r ≠ a → t.reg r = s.reg r) ∧
      t.fl = s.fl ∧ t.pc = s.pc ∧ t.run = s.run ∧ t.out = s.out ∧ SameMemory s t ∧
      (t.fault = s.fault ∨ (t.fault = .registerIndexOutOfRange ∧ ¬ i.WellFormed) ∨
        (t.fault = .divideByZero ∧ i = .div a b))

/-- What CMP, PRN, HLT, JMP, JEQ, JNE leave unchanged, for every operand byte: every register and every byte of memory; the
flags but for CMP; OUT but for PRN; RUN but for HLT; the pc but for the jumps; FAULT unless an index is out of range. -/
def Obligations.NoRegisterWrittenFrame : Prop :=
  ∀ (i : Instr) (a b : Byte),
    i = .cmp a b ∨ i = .prn a ∨ i = .hlt ∨ i = .jmp a ∨ i = .jeq a ∨ i = .jne a →
    ∀ s t : State, exec i s = .next t →
      (∀ r : Fin 8, t.reg r = s.reg r) ∧ SameMemory s t ∧
      (t.fl = s.fl ∨ i = .cmp a b) ∧ (t.out = s.out ∨ i = .prn a) ∧ (t.run = s.run ∨ i = .hlt) ∧
      (t.pc = s.pc ∨ i = .jmp a ∨ i = .jeq a ∨ i = .jne a) ∧
      (t.fault = s.fault ∨ (t.fault = .registerIndexOutOfRange ∧ ¬ i.WellFormed))

/-- What PUSH leaves unchanged: every register but the stack pointer, the flags, the pc, RUN, OUT, every byte but the one
at the address it stores to, `State.pushAddr`; and every byte where it raises. -/
def Obligations.PushFrame : Prop :=
  ∀ (a : Byte) (s t : State), exec (.push a) s = .next t →
    (∀ r : Fin 8, r ≠ 7 → t.reg r = s.reg r) ∧
    t.fl = s.fl ∧ t.pc = s.pc ∧ t.run = s.run ∧ t.out = s.out ∧
    (∀ addr : Nat, addr ≠ s.pushAddr.toNat → t.mem.read addr = s.mem.read addr) ∧
    (t.fault = s.fault ∨
      ((t.fault = .registerIndexOutOfRange ∧ ¬ Instr.WellFormed (.push a) ∨
        t.fault = .addressOutOfRange ∧ s.reg 7 = 0#8) ∧ t.x = s.x ∧ SameMemory s t))

/-- What POP leaves unchanged: every register but the destination and the stack pointer, the flags, the pc, RUN, OUT,
every byte of memory; where it raises, every register. -/
def Obligations.PopFrame : Prop :=
  ∀ (a : Byte) (s t : State), exec (.pop a) s = .next t →
    (∀ r : Fin 8, r ≠ 7 → regByte r ≠ a → t.reg r = s.reg r) ∧
    t.fl = s.fl ∧ t.pc = s.pc ∧ t.run = s.run ∧ t.out = s.out ∧ SameMemory s t ∧
    (t.fault = s.fault ∨
      ((t.fault = .registerIndexOutOfRange ∧ ¬ Instr.WellFormed (.pop a) ∨ t.fault = .addressOutOfRange) ∧ t.x = s.x))

/-! ### Faults -/

/-- An instruction with a register operand of 8 to 255 raises RegisterIndexOutOfRange and performs nothing, a jump that
would not be taken too (30_encoding.md R62, 40_fetch_dispatch.md R76; the spec's decision D5). -/
def Obligations.BadRegisterIndexRaises : Prop :=
  ∀ (i : Instr) (s : State), ¬ i.WellFormed →
    exec i s = .next { s with fault := .registerIndexOutOfRange }

/-- DivideByZero is raised by DIV when its divisor is 0, and by no other instruction (60_exceptions.md R131);
that a step after it answers the same state is the model's choice, log 4. -/
def Obligations.OnlyDivRaisesDivideByZero : Prop :=
  (∀ (ra rb : Fin 8) (s : State), s.reg rb = 0#8 →
    exec (.div (regByte ra) (regByte rb)) s = .next { s with fault := .divideByZero } ∧
    step { s with fault := .divideByZero } = .next { s with fault := .divideByZero }) ∧
  ∀ (i : Instr) (s t : State), exec i s = .next t → s.fault ≠ .divideByZero → t.fault = .divideByZero →
    ∃ ra rb : Fin 8, i = .div (regByte ra) (regByte rb) ∧ s.reg rb = 0#8 ∧ t.x = s.x

/-- Faults are precise (60_exceptions.md R136; the spec's decision D10): after a step that records a fault, registers,
flags, memory, OUT and RUN are as before, and `pc` is unchanged at the fetch fault and else advanced by `1 + IR[7:6]`. -/
def Obligations.FaultsArePrecise : Prop :=
  ∀ (o : Opcodes) (s t : State), s.status = .running → stepWith o s = .next t → t.fault ≠ .noFault →
    SameButPcAndFault s t ∧
    if s.pc.toNat > 253 then t.pc = s.pc
    else t.pc.toNat = s.pc.toNat + 1 + ((s.mem.read s.pc.toNat).extractLsb' 6 2).toNat

/-- The fault a step records is the first in the order fetch bound, opcode, register index, the instruction's own
(60_exceptions.md R139; the spec's decision D18), and none is recorded when none applies. -/
def Obligations.FaultIsFirstInPriorityOrder : Prop :=
  ∀ (o : Opcodes) (s t : State), s.status = .running → stepWith o s = .next t →
    t.fault =
      if s.pc.toNat > 253 then .addressOutOfRange
      else match decodeWith o
          ⟨s.mem.read s.pc.toNat, s.mem.read (s.pc.toNat + 1), s.mem.read (s.pc.toNat + 2)⟩ with
        | .error _ => .unsupportedOperation
        | .ok i => if i.WellFormed then ownFault i s else .registerIndexOutOfRange

/-! ### Rules about the whole machine -/

/-- Only CMP writes the flags, and then exactly one is set (10_state.md R18). -/
def Obligations.OnlyCmpWritesFlags : Prop :=
  ∀ (o : Opcodes) (s t : State), stepWith o s = .next t →
    t.fl = s.fl ∨ ((∃ a b, decodeWith o (s.fetchedAt s.pc) = .ok (.cmp a b)) ∧ t.fl.exactlyOne)

/-- RUN is 1 after reset, only HLT writes 0 to it, and no step writes 1 (10_state.md R20). -/
def Obligations.OnlyHltClearsRun : Prop :=
  State.reset.run = true ∧
  ∀ (o : Opcodes) (s t : State), stepWith o s = .next t →
    t.run = s.run ∨ (decodeWith o (s.fetchedAt s.pc) = .ok .hlt ∧ t.run = false)

/-- A step of a Running core ends in the status Halted exactly when it executes HLT (70_reset_and_hazards.md R166). -/
def Obligations.StepHaltsExactlyOnHlt : Prop :=
  ∀ (o : Opcodes) (s t : State), s.status = .running → stepWith o s = .next t →
    (t.status = .halted ↔ s.pc.toNat ≤ 253 ∧ decodeWith o (s.fetchedAt s.pc) = .ok .hlt)

/-- A step of a Running core ends in the status Faulted(F) exactly when it raises F (70_reset_and_hazards.md R166): each of
the four faults with the conditions the stages and the instruction rules raise it under (60_exceptions.md R130, with the
priority of R139). The spec's decisions D4, D5, D6, D18 (log 12) and, for POP R7, D17 (log 13). -/
def Obligations.StepFaultsExactlyWhenRaised : Prop :=
  ∀ o : Opcodes, o.WellFormed → ∀ s t : State, s.status = .running → stepWith o s = .next t →
    (t.status = .faulted .addressOutOfRange ↔
      s.pc.toNat > 253 ∨
      (s.pc.toNat ≤ 253 ∧ ∃ r : Fin 8,
        (decodeWith o (s.fetchedAt s.pc) = .ok (.push (regByte r)) ∧ s.reg 7 = 0#8) ∨
        (decodeWith o (s.fetchedAt s.pc) = .ok (.pop (regByte r)) ∧
          (if r = 7 then s.mem.read (s.reg 7).toNat else s.reg 7) = 255#8))) ∧
    (t.status = .faulted .unsupportedOperation ↔ s.pc.toNat ≤ 253 ∧ s.mem.read s.pc.toNat ∉ o.assigned) ∧
    (t.status = .faulted .registerIndexOutOfRange ↔
      s.pc.toNat ≤ 253 ∧ ∃ i, decodeWith o (s.fetchedAt s.pc) = .ok i ∧ ¬ i.WellFormed) ∧
    (t.status = .faulted .divideByZero ↔
      s.pc.toNat ≤ 253 ∧ ∃ ra rb : Fin 8,
        decodeWith o (s.fetchedAt s.pc) = .ok (.div (regByte ra) (regByte rb)) ∧ s.reg rb = 0#8)

/-- The pc after a step that fetches is the address after the executed or unassigned opcode's bytes, unless a jump loads it
with a register's value (10_state.md R15, 40_fetch_dispatch.md R80). -/
def Obligations.SequentialFlowUnlessJump : Prop :=
  ∀ (o : Opcodes) (s t : State), s.status = .running → s.pc.toNat ≤ 253 → stepWith o s = .next t →
    t.pc.toNat = s.pc.toNat + 1 + ((s.mem.read s.pc.toNat).extractLsb' 6 2).toNat ∨
    ∃ r : Fin 8, t.pc.toNat = (s.reg r).toNat ∧
      (decodeWith o (s.fetchedAt s.pc) = .ok (.jmp (regByte r)) ∨
        (decodeWith o (s.fetchedAt s.pc) = .ok (.jeq (regByte r)) ∧ s.fl.e = true) ∨
        (decodeWith o (s.fetchedAt s.pc) = .ok (.jne (regByte r)) ∧ s.fl.e = false))

/-- Only PUSH writes memory, one byte, the one below the stack pointer (20_memory.md R30, R32). -/
def Obligations.OnlyPushWritesMemory : Prop :=
  ∀ (o : Opcodes) (s t : State), stepWith o s = .next t →
    SameMemory s t ∨
    (∃ r : Fin 8, decodeWith o (s.fetchedAt s.pc) = .ok (.push (regByte r)) ∧ t.reg 7 = s.reg 7 - 1#8 ∧
      ∀ a : Nat, t.mem.read a = if a = (t.reg 7).toNat then t.reg r else s.mem.read a)

/-- Over any number of steps OUT only grows: what was emitted stays, in order, and a step emits at most one byte
(10_state.md R23). -/
def Obligations.OutputOnlyGrows : Prop :=
  ∀ (n : Nat) (s t : State), runSteps n s = .next t → ∃ new : List Byte, t.out = s.out ++ new ∧ new.length ≤ n

/-- Only PRN emits, and what it emits, and the output port transfers, is the register it names (10_state.md R23,
42_data_io.md R101, 70_reset_and_hazards.md R171; the spec's decisions D11, D15). -/
def Obligations.OnlyPrnEmits : Prop :=
  ∀ (o : Opcodes) (s t : State), stepWith o s = .next t →
    (t.out = s.out ∧ transferred s t = []) ∨
    (∃ r : Fin 8, decodeWith o (s.fetchedAt s.pc) = .ok (.prn (regByte r)) ∧
      t.out = s.out ++ [s.reg r] ∧ transferred s t = [s.reg r])

/-- Every step keeps the invariant: memory in its canonical form (the form is the model's, log 6, no rule of the spec), `pc`
at most 257 (10_state.md R16; the spec's decision D3), no two flags set (R19), never RUN = 0 with a fault (R22). -/
def Obligations.StepKeepsInvariant : Prop :=
  ∀ s t : State, s.Inv → step s = .next t → t.Inv

/-- The reset state meets the invariant. Its memory clause is about the model's form (log 6); that no two flags are set at
reset rests on the spec's decision D8 (log 2). -/
def Obligations.ResetMeetsInvariant : Prop :=
  State.reset.Inv

/-- Whatever image is loaded, every state its run reaches meets the invariant. Its memory clause is about the model's form
(log 6); its flag clause starts from the reset flags, the spec's decision D8 (log 2). -/
def Obligations.RunsKeepInvariant : Prop :=
  ∀ (image : List Byte) (s t : State) (n : Nat), launch image = some s → runSteps n s = .next t → t.Inv

/-- The flags L and G are read by nothing (10_state.md R18): two states that differ in L and G only give, for every
instruction, results that differ in L and G only. -/
def Obligations.LessAndGreaterReadByNothing : Prop :=
  ∀ (i : Instr) (s : State) (l g : Bool), ∃ t u : State,
    exec i s = .next t ∧ exec i { s with fl := ⟨l, g, s.fl.e⟩ } = .next u ∧
    u = { t with fl := ⟨u.fl.l, u.fl.g, t.fl.e⟩ }

/-- Nothing reads OUT: a step from the same state with another history does the same and appends the same. -/
def Obligations.OutputHistoryReadByNothing : Prop :=
  ∀ (o : Opcodes) (s : State) (past : List Byte), ∃ (t : State) (new : List Byte),
    stepWith o s = .next { t with out := s.out ++ new } ∧
    stepWith o { s with out := past } = .next { t with out := past ++ new }

/-! ### Memory accesses and the stack -/

/-- A step changes no byte but the ones in its list of writes (20_memory.md R46). -/
def Obligations.StepWritesOnlyListedBytes : Prop :=
  ∀ (o : Opcodes) (s t : State), stepWith o s = .next t →
    ∀ a : Addr, .write a ∉ stepAccesses o s → t.mem.read a.toNat = s.mem.read a.toNat

/-- A step depends on no byte but the ones in its list of reads (20_memory.md R46): with another memory that agrees on
them it ends in a state that is the same in everything but memory. -/
def Obligations.StepDependsOnlyOnListedReads : Prop :=
  ∀ (o : Opcodes) (s : State) (m : Memory),
    (∀ a : Addr, .read a ∈ stepAccesses o s → m.read a.toNat = s.mem.read a.toNat) →
    ∃ t u : State, stepWith o s = .next t ∧ stepWith o { s with mem := m } = .next u ∧ SameButMemory t u

/-- A pushed byte is what a fetch of its address reads from then on, as opcode or as operand byte (20_memory.md R43; the
spec's decision D16): right after the PUSH (`n = 0`) and after any number of steps none of which writes the address. The
pushed value is the register as it is after the decrement, for register 7 the spec's decision D17 (log 13). -/
def Obligations.PushedByteIsFetched : Prop :=
  ∀ (ra : Fin 8) (s t : State), s.reg 7 ≠ 0#8 → exec (.push (regByte ra)) s = .next t →
    ∀ (n : Nat) (u : State), runSteps n t = .next u →
      (∀ k < n, ∀ v, runSteps k t = .next v → .write (t.reg 7) ∉ stepAccesses defaultOpcodes v) →
      ∀ pc : PcWord, pc.toNat ≤ 253 →
        (pc.toNat = (t.reg 7).toNat → (u.fetchedAt pc).ir = t.reg ra) ∧
        (pc.toNat + 1 = (t.reg 7).toNat → (u.fetchedAt pc).opa = t.reg ra) ∧
        (pc.toNat + 2 = (t.reg 7).toNat → (u.fetchedAt pc).opb = t.reg ra)

/-- The stack is last in, first out (43_stack.md R113): after N pushes and N pops, none naming register 7 and with a stack
pointer of at least N, the pointer is back, no fault is recorded, and the k-th pop got the value of the k-th last push. -/
def Obligations.StackIsLastInFirstOut : Prop :=
  ∀ (rs qs : List (Fin 8)) (s : State), rs.length = qs.length → (7 : Fin 8) ∉ rs → (7 : Fin 8) ∉ qs →
    rs.length ≤ (s.reg 7).toNat →
    (∃ t, execAll (rs.map (fun r => .push (regByte r)) ++ qs.map (fun q => .pop (regByte q))) s = .next t ∧
      t.reg 7 = s.reg 7 ∧ t.fault = s.fault) ∧
    ∀ (k : Nat) (r q : Fin 8), rs[rs.length - 1 - k]? = some r → qs[k]? = some q →
      ∃ u, execAll (rs.map (fun r => .push (regByte r)) ++ (qs.take (k + 1)).map (fun q => .pop (regByte q))) s = .next u ∧
        u.reg q = s.reg r

/-- The capacity of the stack from its reset pointer 0xF4 (43_stack.md R114): 244 pushes of a register are possible and the
245th raises; 11 pops are possible and the 12th raises. -/
def Obligations.StackCapacityFromReset : Prop :=
  ∀ (r : Fin 8) (s : State), r ≠ 7 → s.reg 7 = 0xF4#8 →
    (∃ t, execAll (List.replicate 244 (.push (regByte r))) s = .next t ∧ t.reg 7 = 0#8 ∧ t.fault = s.fault ∧
      (∀ a < 244, t.mem.read a = s.reg r) ∧
      exec (.push (regByte r)) t = .next { t with fault := .addressOutOfRange }) ∧
    (∃ t, execAll (List.replicate 11 (.pop (regByte r))) s = .next t ∧ t.reg 7 = 0xFF#8 ∧ t.fault = s.fault ∧
      exec (.pop (regByte r)) t = .next { t with fault := .addressOutOfRange })

/-- CMP and the branch after it agree: JEQ then jumps exactly when the two values are equal, JNE exactly when they differ
(41_alu.md R94, 44_control_flow.md R122, R123). -/
def Obligations.BranchAfterCompare : Prop :=
  ∀ (ra rb rt : Fin 8) (s : State),
    (∃ u, execAll [.cmp (regByte ra) (regByte rb), .jeq (regByte rt)] s = .next u ∧
      u.pc.toNat = if s.reg ra = s.reg rb then (s.reg rt).toNat else s.pc.toNat) ∧
    (∃ u, execAll [.cmp (regByte ra) (regByte rb), .jne (regByte rt)] s = .next u ∧
      u.pc.toNat = if s.reg ra = s.reg rb then s.pc.toNat else (s.reg rt).toNat)

/-! ### Reset and launch -/

/-- The reset state, for every value of the parameters RESET_GPR and RESET_FL (10_state.md R27, 70_reset_and_hazards.md
R160), and the defaults the machine has, the spec's decisions D7 and D8 (log 2). -/
def Obligations.ResetValues : Prop :=
  (∀ (gpr : Byte) (fl : Flags) (s : State), s = State.resetWith gpr fl →
    (∀ a : Nat, s.mem.read a = 0#8) ∧ (∀ r : Fin 8, s.reg r = if r = 7 then 0xF4#8 else gpr) ∧
    s.pc = 0#9 ∧ s.fl = fl ∧ s.status = .running ∧ s.run = true ∧ s.fault = .noFault ∧ s.out = []) ∧
  State.reset = State.resetWith 0#8 ⟨false, false, false⟩

/-- The launch state (70_reset_and_hazards.md R161, R162; the spec's decision D13): an image of more than 256 bytes is
refused, any other lies in memory from address 0 with 0x00 after it, everything else as reset leaves it. -/
def Obligations.LaunchStateOfImage : Prop :=
  ∀ image : List Byte,
    (launch image = none ↔ image.length > 256) ∧
    ∀ s, launch image = some s →
      (∀ a : Nat, s.mem.read a = image.getD a 0#8) ∧ SameButMemory State.reset s

/-- The load port delivers the launch state (70_reset_and_hazards.md R161, R163, R171; the spec's decisions D13, D15): the
image's bytes loaded one by one after reset, then the release, leave the core in the launch state. -/
def Obligations.LoadPortDeliversLaunchState : Prop :=
  ∀ (o : Opcodes) (image : List Byte) (s : State), launch image = some s →
    Block.applyAll o (loadEvents 0 image ++ [.release]) Block.reset = .next ⟨s, false⟩

/-- Once the load port is closed, only a step or reset changes anything: a load does nothing, a step is the core's step, and
reset is the only way back to the open port (20_memory.md R45, 70_reset_and_hazards.md R171, R172; D15). -/
def Obligations.LaunchedBlockEvents : Prop :=
  ∀ (o : Opcodes) (s : State) (ev : Event) (c : Block), Block.apply o ⟨s, false⟩ ev = .next c →
    (∃ a d, ev = .load a d ∧ c = ⟨s, false⟩) ∨ (ev = .release ∧ c = ⟨s, false⟩) ∨
    (ev = .reset ∧ c = ⟨State.reset, true⟩) ∨
    (ev = .step ∧ ∃ t, stepWith o s = .next t ∧ c = ⟨t, false⟩)

/-! ### The end of a run -/

/-- A run that ends, ends in a step that executes HLT, with the status Halted, or in one that raises a fault, with the status
Faulted, RUN still 1 and nothing but `pc` and FAULT changed by that step (70_reset_and_hazards.md R166, 10_state.md R22,
60_exceptions.md R136; the spec's decisions D9, D10). -/
def Obligations.RunEndsByHltOrRaise : Prop :=
  ∀ (s t : State) (n : Nat), s.status = .running → EndsIn s n t →
    ∃ (m : Nat) (u : State), n = m + 1 ∧ runSteps m s = .next u ∧ u.status = .running ∧ step u = .next t ∧
      ((t.status = .halted ∧ u.pc.toNat ≤ 253 ∧ decode (u.fetchedAt u.pc) = .ok .hlt) ∨
        (t.status = .faulted t.fault ∧ t.fault ≠ .noFault ∧ t.run = true ∧ SameButPcAndFault u t))
end

