-- ==== Sys2Proof/Laws/Decode.lean ====
section
/-! SUPPORT. What the decoder can answer, said once: `Decodes o f i` lists the twelve ways, `decodeWith_decodes` says that
an accepted fetch is one of them. -/

namespace Sys2Proof

/-- The ways three fetched bytes read as an instruction. -/
inductive Decodes (o : Opcodes) (f : Fetched) : Instr → Prop where
  | add (h : f.ir = o.add) : Decodes o f (.add f.opa f.opb)
  | mul (h : f.ir = o.mul) : Decodes o f (.mul f.opa f.opb)
  | div (h : f.ir = o.div) : Decodes o f (.div f.opa f.opb)
  | cmp (h : f.ir = o.cmp) : Decodes o f (.cmp f.opa f.opb)
  | ldi (h : f.ir = o.ldi) : Decodes o f (.ldi f.opa f.opb)
  | prn (h : f.ir = o.prn) : Decodes o f (.prn f.opa)
  | hlt (h : f.ir = o.hlt) : Decodes o f .hlt
  | push (h : f.ir = o.push) : Decodes o f (.push f.opa)
  | pop (h : f.ir = o.pop) : Decodes o f (.pop f.opa)
  | jmp (h : f.ir = o.jmp) : Decodes o f (.jmp f.opa)
  | jeq (h : f.ir = o.jeq) : Decodes o f (.jeq f.opa)
  | jne (h : f.ir = o.jne) : Decodes o f (.jne f.opa)

/-- What the ALU recognises is one of its four ways. -/
theorem decodeAlu_decodes {o : Opcodes} {f : Fetched} {i : Instr} (h : decodeAlu o f = some i) : Decodes o f i := by
  unfold decodeAlu at h
  split at h
  · cases h; exact .add ‹_›
  split at h
  · cases h; exact .mul ‹_›
  split at h
  · cases h; exact .div ‹_›
  split at h
  · cases h; exact .cmp ‹_›
  · cases h

/-- What the handler table knows is one of its eight ways. -/
theorem decodeHandler_decodes {o : Opcodes} {f : Fetched} {i : Instr} (h : decodeHandler o f = some i) :
    Decodes o f i := by
  unfold decodeHandler at h
  split at h
  · cases h; exact .ldi ‹_›
  split at h
  · cases h; exact .prn ‹_›
  split at h
  · cases h; exact .hlt ‹_›
  split at h
  · cases h; exact .push ‹_›
  split at h
  · cases h; exact .pop ‹_›
  split at h
  · cases h; exact .jmp ‹_›
  split at h
  · cases h; exact .jeq ‹_›
  split at h
  · cases h; exact .jne ‹_›
  · cases h

/-- An accepted fetch reads as an instruction in one of the twelve ways. -/
theorem decodeWith_decodes {o : Opcodes} {f : Fetched} {i : Instr} (h : decodeWith o f = .ok i) : Decodes o f i := by
  unfold decodeWith at h
  split at h <;> rename_i hd
  · cases h
    split at hd
    · exact decodeAlu_decodes hd
    · exact decodeHandler_decodes hd
  · cases h

/-- A rejection names the opcode. -/
theorem decodeWith_error {o : Opcodes} {f : Fetched} {e : DecodeError} (h : decodeWith o f = .error e) :
    e = .unsupportedOperation f.ir := by
  unfold decodeWith at h
  split at h <;> cases h
  rfl

/-- Bits 7:5 tell the class bit. -/
theorem isAluClass_of_class (c : Byte) (k : BitVec 3) (h : c.extractLsb' 5 3 = k) : isAluClass c = k.getLsbD 0 := by
  subst h
  simp [isAluClass]

/-- The ALU class bit of each assigned opcode (30_encoding.md R56). -/
theorem isAluClass_assigned {o : Opcodes} (ho : o.WellFormed) :
    (∀ c ∈ o.alu, isAluClass c = true) ∧ ∀ c ∈ o.handlers, isAluClass c = false := by
  obtain ⟨-, ha, hl, hr, hh⟩ := ho
  refine ⟨fun c hc => isAluClass_of_class c _ (ha c hc), fun c hc => ?_⟩
  simp only [Opcodes.handlers, List.mem_cons] at hc
  rcases hc with rfl | rfl | hc
  · exact isAluClass_of_class _ _ hl
  · exact isAluClass_of_class _ _ hh
  · exact isAluClass_of_class c _ (hr c hc)

end Sys2Proof
end

