-- ==== Sys2Proof/Laws/Memory.lean ====
section
/-! SUPPORT. The laws of memory: a read after a write, and that every memory operation keeps the canonical form. The
read laws hold of every list of cells, canonical or not. -/

namespace Sys2Proof.Machine

/-- Dropping the cells of address `a` leaves it reading 0 and every other address as before. -/
theorem Memory.read_filter (m : Memory) (a b : Nat) :
    Memory.read (m.filter (fun c => decide (c.1 ≠ a))) b = if b = a then 0#8 else m.read b := by
  induction m with
  | nil => simp [Memory.read]
  | cons c m ih =>
    rw [List.filter_cons]
    split <;> rename_i h <;> simp only [Memory.read, ih] <;> grind

/-- Reading after listing `(a, v)` among cells that do not list `a`. -/
theorem Memory.read_insert (m : Memory) (a b : Nat) (v : Byte) (h : ∀ c ∈ m, c.1 ≠ a) :
    Memory.read (Memory.insert m a v) b = if b = a then v else m.read b := by
  induction m with
  | nil => simp [Memory.insert, Memory.read, eq_comm]
  | cons c m ih =>
    have hc := h c (by simp)
    have := ih fun d hd => h d (by simp [hd])
    simp only [Memory.insert]
    split <;> simp only [Memory.read, this] <;> grind

/-- A read after a write: the written byte at its address, every other byte as before (20_memory.md R32, R40). -/
@[simp] theorem Memory.read_write (m : Memory) (a b : Nat) (v : Byte) :
    (m.write a v).read b = if b = a then v else m.read b := by
  unfold Memory.write
  split <;> rename_i h
  · rw [Memory.read_filter, h]
  · rw [Memory.read_insert _ _ _ _ (by simp), Memory.read_filter]
    grind

/-- Listing a non-zero byte at an address of memory keeps the canonical form. -/
theorem Memory.insert_wf (m : Memory) (a : Nat) (v : Byte) (hm : m.wf) (ha : a < Config.memSize) (hv : v ≠ 0#8)
    (h : ∀ c ∈ m, c.1 ≠ a) : (Memory.insert m a v).wf := by
  have mem_insert : ∀ (m : Memory) d, d ∈ Memory.insert m a v ↔ d = (a, v) ∨ d ∈ m := by
    intro m d
    induction m with
    | nil => simp [Memory.insert]
    | cons c m ih =>
      simp only [Memory.insert]
      split <;> simp [ih, or_left_comm]
  refine ⟨?_, fun d hd => ?_⟩
  · induction m with
    | nil => simp [Memory.insert]
    | cons c m ih =>
      obtain ⟨hp, hb⟩ := hm
      rw [List.pairwise_cons] at hp
      have hc := h c (by simp)
      simp only [Memory.insert]
      split <;> rename_i hlt
      · refine List.pairwise_cons.2 ⟨fun d hd => ?_, List.pairwise_cons.2 hp⟩
        rcases List.mem_cons.1 hd with rfl | hd
        · exact hlt
        · exact hlt.trans (hp.1 d hd)
      · refine List.pairwise_cons.2 ⟨fun d hd => ?_, ih ⟨hp.2, fun d hd => hb d (by simp [hd])⟩
          fun d hd => h d (by simp [hd])⟩
        rcases (mem_insert m d).1 hd with rfl | hd
        · simp only; omega
        · exact hp.1 d hd
  · rcases (mem_insert m d).1 hd with rfl | hd
    · exact ⟨ha, hv⟩
    · exact hm.2 d hd

/-- Every write inside memory keeps the canonical form. -/
theorem Memory.write_wf (m : Memory) (a : Nat) (v : Byte) (hm : m.wf) (ha : a < Config.memSize) :
    (m.write a v).wf := by
  have hf : Memory.wf (m.filter (fun c => decide (c.1 ≠ a))) :=
    ⟨hm.1.filter _, fun c hc => hm.2 c (List.mem_filter.1 hc).1⟩
  unfold Memory.write
  split <;> rename_i h
  · exact hf
  · exact Memory.insert_wf _ a v hf ha h (by simp)

/-- The memory of the reset state has the canonical form. -/
theorem State.reset_mem_wf : State.reset.mem.wf := by decide

/-- One byte written at an address of the core keeps the canonical form. -/
theorem State.memWrite_wf (s : State) (a : Addr) (v : Byte) (h : s.mem.wf) : (s.memWrite a v).mem.wf :=
  Memory.write_wf s.mem a.toNat v h a.isLt

/-- What a byte reads as after one write of the core. -/
theorem State.memWrite_read (s : State) (a : Addr) (v : Byte) (b : Nat) :
    (s.memWrite a v).mem.read b = if b = a.toNat then v else s.mem.read b :=
  Memory.read_write s.mem a.toNat b v

/-- Loading an image keeps the canonical form. -/
theorem State.loadFrom_wf (s : State) (base : Nat) (image : List Byte) (h : s.mem.wf) :
    (s.loadFrom base image).mem.wf := by
  induction image generalizing s base with
  | nil => exact h
  | cons b bs ih => exact ih _ _ (State.memWrite_wf s _ b h)

/-- In canonical form, reading determines memory: equal reads are equal data. -/
theorem Memory.ext_read (m n : Memory) (hm : m.wf) (hn : n.wf) (h : ∀ a, m.read a = n.read a) : m = n := by
  have read_low : ∀ (k : Memory) a, (∀ c ∈ k, a < c.1) → k.read a = 0#8 := by
    intro k a hk
    induction k with
    | nil => rfl
    | cons c k ih =>
      have hc := hk c (by simp)
      simp only [Memory.read, ih fun d hd => hk d (by simp [hd])]
      grind
  have read_head : ∀ (c : Host.Cell) (k : Memory), Memory.read (c :: k) c.1 = c.2 := by simp [Memory.read]
  induction m generalizing n with
  | nil =>
    cases n with
    | nil => rfl
    | cons d n => exact absurd ((h d.1).trans (read_head d n)).symm (hn.2 d (by simp)).2
  | cons c m ih =>
    cases n with
    | nil => exact absurd ((read_head c m).symm.trans (h c.1)) (hm.2 c (by simp)).2
    | cons d n =>
      have hc := List.pairwise_cons.1 hm.1
      have hd := List.pairwise_cons.1 hn.1
      have key : c.1 = d.1 := by
        rcases lt_trichotomy c.1 d.1 with hlt | heq | hlt
        · refine absurd ?_ (hm.2 c (by simp)).2
          rw [← read_head c m, h c.1]
          exact read_low _ _ fun e he => (List.mem_cons.1 he).elim (fun h => h ▸ hlt) fun he => hlt.trans (hd.1 e he)
        · exact heq
        · refine absurd ?_ (hn.2 d (by simp)).2
          rw [← read_head d n, ← h d.1]
          exact read_low _ _ fun e he => (List.mem_cons.1 he).elim (fun h => h ▸ hlt) fun he => hlt.trans (hc.1 e he)
      have val : c.2 = d.2 := by rw [← read_head c m, h c.1, key, read_head]
      have tail : m = n := ih n ⟨hc.2, fun e he => hm.2 e (by simp [he])⟩ ⟨hd.2, fun e he => hn.2 e (by simp [he])⟩
        fun a => by
          by_cases ha : a = c.1
          · rw [ha, read_low m c.1 hc.1, key, read_low n d.1 hd.1]
          · have := h a
            simpa [Memory.read, Ne.symm ha, show d.1 ≠ a from key ▸ Ne.symm ha] using this
      rw [tail, show c = d from Prod.ext key val]

end Sys2Proof.Machine
end

