-- ==== Sys2Proof/Laws/State.lean ====
section
/-! SUPPORT. One lemma per field per update of State, true by rfl: no later proof unfolds a record update. -/

namespace Sys2Proof.Machine

variable (s : State)

@[simp] theorem State.setReg_mem (r : Fin 8) (v : Byte) : (s.setReg r v).mem = s.mem := rfl
@[simp] theorem State.setReg_x (r : Fin 8) (v : Byte) : (s.setReg r v).x = s.x.set r v := rfl
@[simp] theorem State.setReg_pc (r : Fin 8) (v : Byte) : (s.setReg r v).pc = s.pc := rfl
@[simp] theorem State.setReg_fl (r : Fin 8) (v : Byte) : (s.setReg r v).fl = s.fl := rfl
@[simp] theorem State.setReg_run (r : Fin 8) (v : Byte) : (s.setReg r v).run = s.run := rfl
@[simp] theorem State.setReg_fault (r : Fin 8) (v : Byte) : (s.setReg r v).fault = s.fault := rfl
@[simp] theorem State.setReg_out (r : Fin 8) (v : Byte) : (s.setReg r v).out = s.out := rfl
@[simp] theorem State.setReg_memRead (r : Fin 8) (v : Byte) (q : Addr) : (s.setReg r v).memRead q = s.memRead q := rfl

@[simp] theorem State.setPc_mem (p : PcWord) : (s.setPc p).mem = s.mem := rfl
@[simp] theorem State.setPc_x (p : PcWord) : (s.setPc p).x = s.x := rfl
@[simp] theorem State.setPc_pc (p : PcWord) : (s.setPc p).pc = p := rfl
@[simp] theorem State.setPc_fl (p : PcWord) : (s.setPc p).fl = s.fl := rfl
@[simp] theorem State.setPc_run (p : PcWord) : (s.setPc p).run = s.run := rfl
@[simp] theorem State.setPc_fault (p : PcWord) : (s.setPc p).fault = s.fault := rfl
@[simp] theorem State.setPc_out (p : PcWord) : (s.setPc p).out = s.out := rfl
@[simp] theorem State.setPc_reg (p : PcWord) (q : Fin 8) : (s.setPc p).reg q = s.reg q := rfl
@[simp] theorem State.setPc_memRead (p : PcWord) (q : Addr) : (s.setPc p).memRead q = s.memRead q := rfl

@[simp] theorem State.setFl_mem (f : Flags) : (s.setFl f).mem = s.mem := rfl
@[simp] theorem State.setFl_x (f : Flags) : (s.setFl f).x = s.x := rfl
@[simp] theorem State.setFl_pc (f : Flags) : (s.setFl f).pc = s.pc := rfl
@[simp] theorem State.setFl_fl (f : Flags) : (s.setFl f).fl = f := rfl
@[simp] theorem State.setFl_run (f : Flags) : (s.setFl f).run = s.run := rfl
@[simp] theorem State.setFl_fault (f : Flags) : (s.setFl f).fault = s.fault := rfl
@[simp] theorem State.setFl_out (f : Flags) : (s.setFl f).out = s.out := rfl
@[simp] theorem State.setFl_reg (f : Flags) (q : Fin 8) : (s.setFl f).reg q = s.reg q := rfl
@[simp] theorem State.setFl_memRead (f : Flags) (q : Addr) : (s.setFl f).memRead q = s.memRead q := rfl

@[simp] theorem State.setRun_mem (b : Bool) : (s.setRun b).mem = s.mem := rfl
@[simp] theorem State.setRun_x (b : Bool) : (s.setRun b).x = s.x := rfl
@[simp] theorem State.setRun_pc (b : Bool) : (s.setRun b).pc = s.pc := rfl
@[simp] theorem State.setRun_fl (b : Bool) : (s.setRun b).fl = s.fl := rfl
@[simp] theorem State.setRun_run (b : Bool) : (s.setRun b).run = b := rfl
@[simp] theorem State.setRun_fault (b : Bool) : (s.setRun b).fault = s.fault := rfl
@[simp] theorem State.setRun_out (b : Bool) : (s.setRun b).out = s.out := rfl
@[simp] theorem State.setRun_reg (b : Bool) (q : Fin 8) : (s.setRun b).reg q = s.reg q := rfl
@[simp] theorem State.setRun_memRead (b : Bool) (q : Addr) : (s.setRun b).memRead q = s.memRead q := rfl

@[simp] theorem State.setFault_mem (c : FaultCode) : (s.setFault c).mem = s.mem := rfl
@[simp] theorem State.setFault_x (c : FaultCode) : (s.setFault c).x = s.x := rfl
@[simp] theorem State.setFault_pc (c : FaultCode) : (s.setFault c).pc = s.pc := rfl
@[simp] theorem State.setFault_fl (c : FaultCode) : (s.setFault c).fl = s.fl := rfl
@[simp] theorem State.setFault_run (c : FaultCode) : (s.setFault c).run = s.run := rfl
@[simp] theorem State.setFault_fault (c : FaultCode) : (s.setFault c).fault = c := rfl
@[simp] theorem State.setFault_out (c : FaultCode) : (s.setFault c).out = s.out := rfl
@[simp] theorem State.setFault_reg (c : FaultCode) (q : Fin 8) : (s.setFault c).reg q = s.reg q := rfl
@[simp] theorem State.setFault_memRead (c : FaultCode) (q : Addr) : (s.setFault c).memRead q = s.memRead q := rfl

@[simp] theorem State.emit_mem (v : Byte) : (s.emit v).mem = s.mem := rfl
@[simp] theorem State.emit_x (v : Byte) : (s.emit v).x = s.x := rfl
@[simp] theorem State.emit_pc (v : Byte) : (s.emit v).pc = s.pc := rfl
@[simp] theorem State.emit_fl (v : Byte) : (s.emit v).fl = s.fl := rfl
@[simp] theorem State.emit_run (v : Byte) : (s.emit v).run = s.run := rfl
@[simp] theorem State.emit_fault (v : Byte) : (s.emit v).fault = s.fault := rfl
@[simp] theorem State.emit_out (v : Byte) : (s.emit v).out = s.out ++ [v] := rfl
@[simp] theorem State.emit_reg (v : Byte) (q : Fin 8) : (s.emit v).reg q = s.reg q := rfl
@[simp] theorem State.emit_memRead (v : Byte) (q : Addr) : (s.emit v).memRead q = s.memRead q := rfl

@[simp] theorem State.memWrite_mem (a : Addr) (v : Byte) : (s.memWrite a v).mem = s.mem.write a.toNat v := rfl
@[simp] theorem State.memWrite_x (a : Addr) (v : Byte) : (s.memWrite a v).x = s.x := rfl
@[simp] theorem State.memWrite_pc (a : Addr) (v : Byte) : (s.memWrite a v).pc = s.pc := rfl
@[simp] theorem State.memWrite_fl (a : Addr) (v : Byte) : (s.memWrite a v).fl = s.fl := rfl
@[simp] theorem State.memWrite_run (a : Addr) (v : Byte) : (s.memWrite a v).run = s.run := rfl
@[simp] theorem State.memWrite_fault (a : Addr) (v : Byte) : (s.memWrite a v).fault = s.fault := rfl
@[simp] theorem State.memWrite_out (a : Addr) (v : Byte) : (s.memWrite a v).out = s.out := rfl
@[simp] theorem State.memWrite_reg (a : Addr) (v : Byte) (q : Fin 8) : (s.memWrite a v).reg q = s.reg q := rfl

/-- Reading register `q` after writing register `r`. -/
@[simp] theorem State.setReg_reg (r q : Fin 8) (v : Byte) :
    (s.setReg r v).reg q = if r = q then v else s.reg q := by
  simp [State.setReg, State.reg, Vector.getElem_set, Fin.ext_iff]

theorem State.sp_eq : s.sp = s.reg spIndex := rfl

theorem State.setSp_eq (v : Byte) : s.setSp v = s.setReg spIndex v := rfl

/-- The pre-advance writes the pc and nothing else. -/
theorem State.preAdvance_eq (ir : Byte) :
    s.preAdvance ir = s.setPc (s.pc + BitVec.ofNat 9 (instrLength ir)) := rfl

/-- A register reads the same whatever was pre-advanced. -/
@[simp] theorem State.preAdvance_reg (ir : Byte) (q : Fin 8) : (s.preAdvance ir).reg q = s.reg q := rfl
@[simp] theorem State.preAdvance_mem (ir : Byte) : (s.preAdvance ir).mem = s.mem := rfl
@[simp] theorem State.preAdvance_x (ir : Byte) : (s.preAdvance ir).x = s.x := rfl
@[simp] theorem State.preAdvance_fl (ir : Byte) : (s.preAdvance ir).fl = s.fl := rfl
@[simp] theorem State.preAdvance_run (ir : Byte) : (s.preAdvance ir).run = s.run := rfl
@[simp] theorem State.preAdvance_fault (ir : Byte) : (s.preAdvance ir).fault = s.fault := rfl
@[simp] theorem State.preAdvance_out (ir : Byte) : (s.preAdvance ir).out = s.out := rfl
@[simp] theorem State.preAdvance_memRead (ir : Byte) (q : Addr) : (s.preAdvance ir).memRead q = s.memRead q := rfl

/-- The status depends on RUN and FAULT alone (10_state.md R22). -/
theorem State.status_running_iff : s.status = .running ↔ s.run = true ∧ s.fault = .noFault := by
  unfold State.status
  split <;> rename_i h
  · cases s.run <;> simp [h]
  · simp [h]

/-- Halted is RUN = 0 with no fault (10_state.md R22). -/
theorem State.status_halted_iff : s.status = .halted ↔ s.run = false ∧ s.fault = .noFault := by
  unfold State.status
  split <;> rename_i h
  · cases s.run <;> simp [h]
  · simp [h]

end Sys2Proof.Machine
end

