-- ==== Sys2Proof/Laws/Ops.lean ====
section
/-! SUPPORT. What each shared operation can do, said once: the index check, the fetch, one step. -/

namespace Sys2Proof.Machine

/-- The operand byte of register `r` names register `r`. -/
@[simp] theorem regIndex?_regByte (r : Fin 8) : regIndex? (regByte r) = some r := by
  revert r; decide

/-- A byte below 8 is the operand byte of a register. -/
theorem regIndex?_eq_some (a : Byte) (r : Fin 8) : regIndex? a = some r ↔ a = regByte r := by
  revert a r; decide

/-- A byte of 8 or more names no register (30_encoding.md R62). -/
theorem regIndex?_eq_none (a : Byte) : regIndex? a = none ↔ ¬ a.toNat < 8 := by
  unfold regIndex?; split <;> simp_all

/-- A register operand in range: the check passes. -/
@[simp] theorem withReg_regByte (r : Fin 8) (s : State) (act : Fin 8 → Result) :
    withReg (regByte r) s act = act r := by
  simp [withReg]

/-- Two register operands in range: both checks pass. -/
@[simp] theorem withRegs_regByte (ra rb : Fin 8) (s : State) (act : Fin 8 → Fin 8 → Result) :
    withRegs (regByte ra) (regByte rb) s act = act ra rb := by
  simp [withRegs]

/-- A register operand of 8 or more raises and does nothing else. -/
theorem withReg_bad (a : Byte) (h : ¬ a.toNat < 8) (s : State) (act : Fin 8 → Result) :
    withReg a s act = raise .registerIndexOutOfRange s := by
  simp [withReg, (regIndex?_eq_none a).2 h]

/-- All that the check of one register operand can answer. -/
theorem withReg_cases {a : Byte} {s t : State} {act : Fin 8 → Result} (h : withReg a s act = .next t) :
    (∃ r, a = regByte r ∧ act r = .next t) ∨ (¬ a.toNat < 8 ∧ t = s.setFault .registerIndexOutOfRange) := by
  unfold withReg at h
  split at h <;> rename_i hr
  · exact .inl ⟨_, (regIndex?_eq_some _ _).1 hr, h⟩
  · exact .inr ⟨(regIndex?_eq_none a).1 hr, (Host.Outcome.next.inj h).symm⟩

/-- All that the check of two register operands can answer. -/
theorem withRegs_cases {a b : Byte} {s t : State} {act : Fin 8 → Fin 8 → Result} (h : withRegs a b s act = .next t) :
    (∃ ra rb, a = regByte ra ∧ b = regByte rb ∧ act ra rb = .next t) ∨
    ((¬ a.toNat < 8 ∨ ¬ b.toNat < 8) ∧ t = s.setFault .registerIndexOutOfRange) := by
  rcases withReg_cases h with ⟨ra, ha, h⟩ | ⟨ha, ht⟩
  · rcases withReg_cases h with ⟨rb, hb, h⟩ | ⟨hb, ht⟩
    · exact .inl ⟨ra, rb, ha, hb, h⟩
    · exact .inr ⟨.inr hb, ht⟩
  · exact .inr ⟨.inl ha, ht⟩

/-- The state after a PUSH: the pointer decremented, the byte at it written, both from the state before. -/
theorem State.pushReg_eq (s : State) (r : Fin 8) :
    s.pushReg r = (s.setReg spIndex s.pushAddr).memWrite s.pushAddr (if r = spIndex then s.pushAddr else s.reg r) := by
  simp [State.pushReg, State.sp_eq, State.setSp_eq, eq_comm]

@[simp] theorem State.pushReg_pc (s : State) (r : Fin 8) : (s.pushReg r).pc = s.pc := rfl
@[simp] theorem State.pushReg_fl (s : State) (r : Fin 8) : (s.pushReg r).fl = s.fl := rfl
@[simp] theorem State.pushReg_run (s : State) (r : Fin 8) : (s.pushReg r).run = s.run := rfl
@[simp] theorem State.pushReg_fault (s : State) (r : Fin 8) : (s.pushReg r).fault = s.fault := rfl
@[simp] theorem State.pushReg_out (s : State) (r : Fin 8) : (s.pushReg r).out = s.out := rfl

/-- A jump writes the pc and nothing else, and only when taken. -/
theorem State.jumpIf_eq (s : State) (taken : Bool) (r : Fin 8) :
    s.jumpIf taken r = s.setPc (if taken then s.jumpTarget r else s.pc) := by
  cases taken <;> rfl

/-- A program counter value up to 255 is the address it names. -/
theorem pcAddr_toNat (pc : PcWord) (h : pc.toNat < 256) : (pcAddr pc).toNat = pc.toNat := by
  simp [pcAddr, Nat.mod_eq_of_lt h]

/-- The fetch reads the three bytes at `pc`, `pc + 1`, `pc + 2` (40_fetch_dispatch.md R71). -/
theorem State.fetchedAt_eq (s : State) (pc : PcWord) (h : pc.toNat ≤ 253) :
    s.fetchedAt pc = ⟨s.mem.read pc.toNat, s.mem.read (pc.toNat + 1), s.mem.read (pc.toNat + 2)⟩ := by
  have h1 : (pcAddr (pc + 1#9)).toNat = pc.toNat + 1 := by rw [pcAddr_toNat] <;> simp [BitVec.toNat_add] <;> omega
  have h2 : (pcAddr (pc + 2#9)).toNat = pc.toNat + 2 := by rw [pcAddr_toNat] <;> simp [BitVec.toNat_add] <;> omega
  simp [State.fetchedAt, State.memRead, h1, h2, pcAddr_toNat pc (by omega)]

/-- The length the decoder tells is 1 to 4. -/
theorem instrLength_bounds (ir : Byte) : 1 ≤ instrLength ir ∧ instrLength ir ≤ 4 := by
  unfold instrLength operandCount
  have := (ir.extractLsb' 6 2).isLt
  omega

/-- The pre-advance does not wrap (40_fetch_dispatch.md R72). -/
theorem State.preAdvance_pc_toNat (s : State) (ir : Byte) (h : s.pc.toNat ≤ 253) :
    (s.preAdvance ir).pc.toNat = s.pc.toNat + instrLength ir := by
  have := instrLength_bounds ir
  simp [State.preAdvance_eq, BitVec.toNat_add]
  omega

/-- All that a step can do, by its stages. -/
theorem stepWith_cases {o : Opcodes} {s t : State} (h : stepWith o s = .next t) :
    (s.status ≠ .running ∧ t = s) ∨
    (s.status = .running ∧ s.pc.toNat > 253 ∧ t = s.setFault .addressOutOfRange) ∨
    (s.status = .running ∧ s.pc.toNat ≤ 253 ∧
      ((∃ e, decodeWith o (s.fetchedAt s.pc) = .error e ∧
          t = (s.preAdvance (s.fetchedAt s.pc).ir).setFault .unsupportedOperation) ∨
       ∃ i, decodeWith o (s.fetchedAt s.pc) = .ok i ∧ exec i (s.preAdvance (s.fetchedAt s.pc).ir) = .next t)) := by
  unfold stepWith at h
  split at h <;> rename_i hr
  · unfold State.fetch? at h
    split at h <;> rename_i hf <;> split at hf <;> rename_i hp
    · exact .inr (.inl ⟨hr, hp, (Host.Outcome.next.inj h).symm⟩)
    · exact absurd hf (by simp)
    · exact absurd hf (by simp)
    · obtain rfl := Option.some.inj hf
      unfold State.runFetched at h
      refine .inr (.inr ⟨hr, by omega, ?_⟩)
      split at h <;> rename_i hd
      · exact .inr ⟨_, hd, h⟩
      · exact .inl ⟨_, hd, (Host.Outcome.next.inj h).symm⟩
  · exact .inl ⟨hr, (Host.Outcome.next.inj h).symm⟩

/-- A step of a Running core from which three bytes can be fetched is stages 2 to 5 on those bytes. -/
theorem stepWith_fetched (o : Opcodes) (s : State) (hr : s.status = .running) (hp : s.pc.toNat ≤ 253) :
    stepWith o s = s.runFetched o (s.fetchedAt s.pc) := by
  simp [stepWith, hr, State.fetch?, Nat.not_lt.2 hp]

/-- Three bytes placed at a `pc` from which they can be fetched are fetched there. -/
theorem State.placeAt_fetchedAt (s : State) (pc : PcWord) (f : Fetched) (h : pc.toNat ≤ 253) :
    (s.placeAt pc f).fetchedAt pc = f := by
  have h0 := pcAddr_toNat pc (by omega)
  have h1 : (pcAddr (pc + 1#9)).toNat = pc.toNat + 1 := by rw [pcAddr_toNat] <;> simp [BitVec.toNat_add] <;> omega
  have h2 : (pcAddr (pc + 2#9)).toNat = pc.toNat + 2 := by rw [pcAddr_toNat] <;> simp [BitVec.toNat_add] <;> omega
  simp [State.fetchedAt_eq _ _ h, State.placeAt, h0, h1, h2]

/-- A placed instruction is what the next step fetches, whatever the state was (log 8). -/
theorem State.placeInstr_fetch (s : State) (f : Fetched) :
    (s.placeInstr f).status = .running ∧ (s.placeInstr f).fetch? = some f := by
  have hpc : (s.placeInstr f).pc = if s.pc.toNat > 253 then 0#9 else s.pc := rfl
  have hle : (if s.pc.toNat > 253 then 0#9 else s.pc).toNat ≤ 253 := by
    split
    · decide
    · omega
  refine ⟨rfl, ?_⟩
  rw [State.fetch?, hpc, if_neg (by omega)]
  exact congrArg some (State.placeAt_fetchedAt _ _ f hle)

end Sys2Proof.Machine
end

