-- ==== Sys2Proof/Laws/Exec.lean ====
section
/-! SUPPORT. All that an instruction can do, said once: `Does i s t` lists the ways, one per effect of the spec, and
`exec_does` says that a next state of `exec` is one of them. Statements over all instructions go by cases on it. -/

namespace Sys2Proof.Machine

/-- The ways instruction `i` can take `s` to `t`. -/
inductive Does : Instr → State → State → Prop where
  | badIndex {i s} (h : ¬ i.WellFormed) : Does i s (s.setFault .registerIndexOutOfRange)
  | add {s} (ra rb) : Does (.add (regByte ra) (regByte rb)) s (s.setReg ra (aluAdd (s.reg ra) (s.reg rb)))
  | mul {s} (ra rb) : Does (.mul (regByte ra) (regByte rb)) s (s.setReg ra (aluMul (s.reg ra) (s.reg rb)))
  | divZero {s} (ra rb) (h : s.reg rb = 0#8) : Does (.div (regByte ra) (regByte rb)) s (s.setFault .divideByZero)
  | div {s} (ra rb) (h : s.reg rb ≠ 0#8) :
      Does (.div (regByte ra) (regByte rb)) s (s.setReg ra (aluDiv (s.reg ra) (s.reg rb)))
  | cmp {s} (ra rb) : Does (.cmp (regByte ra) (regByte rb)) s (s.setFl (compareFlags (s.reg ra) (s.reg rb)))
  | ldi {s} (ra) (imm : Byte) : Does (.ldi (regByte ra) imm) s (s.setReg ra imm)
  | prn {s} (ra) : Does (.prn (regByte ra)) s (s.emit (s.reg ra))
  | hlt {s} : Does .hlt s (s.setRun false)
  | pushZero {s} (ra) (h : s.reg spIndex = 0#8) : Does (.push (regByte ra)) s (s.setFault .addressOutOfRange)
  | push {s} (ra) (h : s.reg spIndex ≠ 0#8) : Does (.push (regByte ra)) s (s.pushReg ra)
  | popTop {s} (ra) (h : s.poppedSp ra > 255) : Does (.pop (regByte ra)) s (s.setFault .addressOutOfRange)
  | pop {s} (ra) (h : s.poppedSp ra ≤ 255) :
      Does (.pop (regByte ra)) s
        ((s.setReg ra (s.memRead (s.reg spIndex))).setReg spIndex (BitVec.ofNat 8 (s.poppedSp ra)))
  | jmp {s} (ra) : Does (.jmp (regByte ra)) s (s.setPc (s.jumpTarget ra))
  | jeq {s} (ra) : Does (.jeq (regByte ra)) s (s.setPc (if s.fl.e then s.jumpTarget ra else s.pc))
  | jne {s} (ra) : Does (.jne (regByte ra)) s (s.setPc (if !s.fl.e then s.jumpTarget ra else s.pc))

theorem next_inj {s t : State} (h : (Host.Outcome.next s : Result) = .next t) : s = t :=
  Host.Outcome.next.inj h

/-- A next state of an instruction is one of the ways of `Does`. -/
theorem exec_does {i : Instr} {s t : State} (h : exec i s = .next t) : Does i s t := by
  cases i with
  | add a b =>
    rcases withRegs_cases h with ⟨ra, rb, rfl, rfl, g⟩ | ⟨hb, rfl⟩
    · exact next_inj g ▸ .add ra rb
    · exact .badIndex (by simp [Instr.regOperands]; omega)
  | mul a b =>
    rcases withRegs_cases h with ⟨ra, rb, rfl, rfl, g⟩ | ⟨hb, rfl⟩
    · exact next_inj g ▸ .mul ra rb
    · exact .badIndex (by simp [Instr.regOperands]; omega)
  | div a b =>
    rcases withRegs_cases h with ⟨ra, rb, rfl, rfl, g⟩ | ⟨hb, rfl⟩
    · split at g <;> rename_i hz
      · exact next_inj g ▸ .divZero ra rb hz
      · exact next_inj g ▸ .div ra rb hz
    · exact .badIndex (by simp [Instr.regOperands]; omega)
  | cmp a b =>
    rcases withRegs_cases h with ⟨ra, rb, rfl, rfl, g⟩ | ⟨hb, rfl⟩
    · exact next_inj g ▸ .cmp ra rb
    · exact .badIndex (by simp [Instr.regOperands]; omega)
  | ldi a imm =>
    rcases withReg_cases h with ⟨ra, rfl, g⟩ | ⟨hb, rfl⟩
    · exact next_inj g ▸ .ldi ra imm
    · exact .badIndex (by simp [Instr.regOperands]; omega)
  | prn a =>
    rcases withReg_cases h with ⟨ra, rfl, g⟩ | ⟨hb, rfl⟩
    · exact next_inj g ▸ .prn ra
    · exact .badIndex (by simp [Instr.regOperands]; omega)
  | hlt => exact next_inj h ▸ .hlt
  | push a =>
    rcases withReg_cases h with ⟨ra, rfl, g⟩ | ⟨hb, rfl⟩
    · split at g <;> rename_i hz
      · exact next_inj g ▸ .pushZero ra hz
      · exact next_inj g ▸ .push ra hz
    · exact .badIndex (by simp [Instr.regOperands]; omega)
  | pop a =>
    rcases withReg_cases h with ⟨ra, rfl, g⟩ | ⟨hb, rfl⟩
    · split at g <;> rename_i hz
      · exact next_inj g ▸ .popTop ra hz
      · exact next_inj g ▸ .pop ra (Nat.not_lt.1 hz)
    · exact .badIndex (by simp [Instr.regOperands]; omega)
  | jmp a =>
    rcases withReg_cases h with ⟨ra, rfl, g⟩ | ⟨hb, rfl⟩
    · exact next_inj (s.jumpIf_eq true ra ▸ g) ▸ .jmp ra
    · exact .badIndex (by simp [Instr.regOperands]; omega)
  | jeq a =>
    rcases withReg_cases h with ⟨ra, rfl, g⟩ | ⟨hb, rfl⟩
    · exact next_inj (s.jumpIf_eq s.fl.e ra ▸ g) ▸ .jeq ra
    · exact .badIndex (by simp [Instr.regOperands]; omega)
  | jne a =>
    rcases withReg_cases h with ⟨ra, rfl, g⟩ | ⟨hb, rfl⟩
    · exact next_inj (s.jumpIf_eq (!s.fl.e) ra ▸ g) ▸ .jne ra
    · exact .badIndex (by simp [Instr.regOperands]; omega)

end Sys2Proof.Machine
end

