-- ==== Sys2Proof/Laws/PerInstr.lean ====
section
/-! SUPPORT. Statements made per instruction. Family Length: the encoding of an instruction is as long as its format says
and as its first byte tells the decoder (30_encoding.md R52, R63), for every opcode assignment that meets R56. -/

namespace Sys2Proof.Laws

/-- The encoding has the format's length, and bits 7:6 of its first byte tell it. -/
def Length.Statement (i : Instr) : Prop :=
  ∀ o : Opcodes, o.WellFormed →
    (encodeWith o i).length = i.format.length ∧
    instrLength ((encodeWith o i).getD 0 0#8) = i.format.length

/-- Bits 7:5 tell bits 7:6. -/
theorem operandCount_of_class (c : Byte) (k : BitVec 3) (h : c.extractLsb' 5 3 = k) :
    operandCount c = k.toNat / 2 := by
  subst h
  revert c
  decide

theorem Length.add (a b : Byte) : Length.Statement (.add a b) := fun o ho =>
  ⟨rfl, by simp [encodeWith, instrLength, Instr.format, Format.length, operandCount_of_class o.add _ (ho.2.1 _ (by simp [Opcodes.alu]))]⟩
theorem Length.mul (a b : Byte) : Length.Statement (.mul a b) := fun o ho =>
  ⟨rfl, by simp [encodeWith, instrLength, Instr.format, Format.length, operandCount_of_class o.mul _ (ho.2.1 _ (by simp [Opcodes.alu]))]⟩
theorem Length.div (a b : Byte) : Length.Statement (.div a b) := fun o ho =>
  ⟨rfl, by simp [encodeWith, instrLength, Instr.format, Format.length, operandCount_of_class o.div _ (ho.2.1 _ (by simp [Opcodes.alu]))]⟩
theorem Length.cmp (a b : Byte) : Length.Statement (.cmp a b) := fun o ho =>
  ⟨rfl, by simp [encodeWith, instrLength, Instr.format, Format.length, operandCount_of_class o.cmp _ (ho.2.1 _ (by simp [Opcodes.alu]))]⟩
theorem Length.ldi (a imm : Byte) : Length.Statement (.ldi a imm) := fun o ho =>
  ⟨rfl, by simp [encodeWith, instrLength, Instr.format, Format.length, operandCount_of_class o.ldi _ ho.2.2.1]⟩
theorem Length.prn (a : Byte) : Length.Statement (.prn a) := fun o ho =>
  ⟨rfl, by simp [encodeWith, instrLength, Instr.format, Format.length, operandCount_of_class o.prn _ (ho.2.2.2.1 _ (by simp [Opcodes.oneRegister]))]⟩
theorem Length.hlt : Length.Statement .hlt := fun o ho =>
  ⟨rfl, by simp [encodeWith, instrLength, Instr.format, Format.length, operandCount_of_class o.hlt _ ho.2.2.2.2]⟩
theorem Length.push (a : Byte) : Length.Statement (.push a) := fun o ho =>
  ⟨rfl, by simp [encodeWith, instrLength, Instr.format, Format.length, operandCount_of_class o.push _ (ho.2.2.2.1 _ (by simp [Opcodes.oneRegister]))]⟩
theorem Length.pop (a : Byte) : Length.Statement (.pop a) := fun o ho =>
  ⟨rfl, by simp [encodeWith, instrLength, Instr.format, Format.length, operandCount_of_class o.pop _ (ho.2.2.2.1 _ (by simp [Opcodes.oneRegister]))]⟩
theorem Length.jmp (a : Byte) : Length.Statement (.jmp a) := fun o ho =>
  ⟨rfl, by simp [encodeWith, instrLength, Instr.format, Format.length, operandCount_of_class o.jmp _ (ho.2.2.2.1 _ (by simp [Opcodes.oneRegister]))]⟩
theorem Length.jeq (a : Byte) : Length.Statement (.jeq a) := fun o ho =>
  ⟨rfl, by simp [encodeWith, instrLength, Instr.format, Format.length, operandCount_of_class o.jeq _ (ho.2.2.2.1 _ (by simp [Opcodes.oneRegister]))]⟩
theorem Length.jne (a : Byte) : Length.Statement (.jne a) := fun o ho =>
  ⟨rfl, by simp [encodeWith, instrLength, Instr.format, Format.length, operandCount_of_class o.jne _ (ho.2.2.2.1 _ (by simp [Opcodes.oneRegister]))]⟩

end Sys2Proof.Laws
end

