-- ==== Sys2Proof/Laws/Run.lean ====
section
/-! SUPPORT. Runs: one step unfolded, and that the runs of the statements are the host's runs. -/

namespace Sys2Proof.Machine

/-- A run of `n + 1` steps whose first step answers `t` is a run of `n` steps from `t`. -/
theorem runSteps_succ {n : Nat} {s t : State} (h : step s = .next t) : runSteps (n + 1) s = runSteps n t := by
  rw [runSteps, h]

/-- A host's run whose first step answers `t` goes on from `t`. -/
theorem core_run_next {M : Host.Core} {n : Nat} {s t : M.State} (h : M.step s = .next t) :
    M.run (n + 1) s = M.run n t := by
  rw [Host.Core.run, h]

/-- A host's run whose first step is refused is refused. -/
theorem core_run_refused {M : Host.Core} {n : Nat} {s : M.State} {f : M.Refusal} (h : M.step s = .refused f) :
    M.run (n + 1) s = .refused f := by
  rw [Host.Core.run, h]

/-- `runSteps` is the host's run of the core. -/
theorem runSteps_eq_core_run (n : Nat) (s : State) : runSteps n s = Sys2Proof.core.run n s := by
  induction n generalizing s with
  | zero => rfl
  | succ n ih =>
    cases hs : step s with
    | next t => exact (runSteps_succ hs).trans ((ih t).trans (core_run_next (M := Sys2Proof.core) hs).symm)
    | fault f => exact nomatch f
    | refused f =>
      have g : runSteps (n + 1) s = .refused f := by rw [runSteps, hs]
      exact g.trans (core_run_refused (M := Sys2Proof.core) hs).symm

/-- A sequence of instructions whose first answers `t` goes on from `t`. -/
theorem execAll_cons {i : Instr} {is : List Instr} {s t : State} (h : exec i s = .next t) :
    execAll (i :: is) s = execAll is t := by
  rw [execAll, h]

/-- A sequence of instructions in two parts. -/
theorem execAll_append {is js : List Instr} {s t : State} (h : execAll is s = .next t) :
    execAll (is ++ js) s = execAll js t := by
  induction is generalizing s with
  | nil => obtain rfl := next_inj h; rfl
  | cons i is ih =>
    unfold execAll at h
    split at h <;> rename_i hi
    · exact (execAll_cons hi).trans (ih h)
    · cases h
    · cases h

end Sys2Proof.Machine
end

