-- ==== Sys2Proof/Tests/Slice0.lean ====
section
/-! SUPPORT. Tests on single steps, expected results from 95_test_vectors.md (V-…, S…, P…) or from the rule named beside
each; the smoke tests of the well-formedness checks; and for every statement with hypotheses a witness that meets them. -/

namespace Sys2Proof.Tests

open Sys2Proof.Machine

/-- The launch state of a short image (70_reset_and_hazards.md R162). -/
def boot (image : List Byte) : State := State.reset.loadFrom 0 image

/-- What a result shows of its next state; `none` where it stops. -/
def probe {α : Type} (r : Result) (f : State → α) : Option α :=
  match r with
  | .next s => some (f s)
  | .fault _ => none
  | .refused _ => none

/-! ### Well-formedness -/

/-- Every register operand is checked, and 8 is the first byte refused (30_encoding.md R62). -/
theorem test_wf_refuses_bad_index :
    ¬ (Instr.add 8#8 0#8).WellFormed ∧ ¬ (Instr.mul 0#8 8#8).WellFormed ∧ ¬ (Instr.div 9#8 1#8).WellFormed ∧
    ¬ (Instr.cmp 0#8 255#8).WellFormed ∧ ¬ (Instr.ldi 8#8 1#8).WellFormed ∧ ¬ (Instr.prn 8#8).WellFormed ∧
    ¬ (Instr.push 8#8).WellFormed ∧ ¬ (Instr.pop 128#8).WellFormed ∧ ¬ (Instr.jmp 8#8).WellFormed ∧
    ¬ (Instr.jeq 9#8).WellFormed ∧ ¬ (Instr.jne 255#8).WellFormed := by decide

/-- Index 7 is legal, and the immediate of LDI is never checked (42_data_io.md R100). -/
theorem test_wf_accepts : (Instr.add 7#8 7#8).WellFormed ∧ (Instr.ldi 7#8 255#8).WellFormed ∧ Instr.hlt.WellFormed := by
  decide

/-- Each item of 30_encoding.md R56 refuses an assignment that breaks it: a value used twice, a class or count bit wrong. -/
theorem test_opcodes_refused :
    ¬ Opcodes.WellFormed { defaultOpcodes with jne := 0x55#8 } ∧
    ¬ Opcodes.WellFormed { defaultOpcodes with cmp := 0x87#8 } ∧
    ¬ Opcodes.WellFormed { defaultOpcodes with ldi := 0x42#8 } ∧
    ¬ Opcodes.WellFormed { defaultOpcodes with pop := 0x66#8 } ∧
    ¬ Opcodes.WellFormed { defaultOpcodes with hlt := 0x41#8 } := by decide

/-- "The defaults of rule R55 do" (30_encoding.md R56). -/
theorem witness_defaultOpcodes : defaultOpcodes.WellFormed := by decide

/-- Another assignment meets R56 as well, so that the statements over all of them say more than the defaults. -/
theorem witness_otherOpcodes :
    Opcodes.WellFormed ⟨0xBF#8, 0xA0#8, 0xA1#8, 0xB0#8, 0x9F#8, 0x40#8, 0x1F#8, 0x41#8, 0x42#8, 0x43#8, 0x44#8, 0x5F#8⟩ := by
  decide

/-! ### Decoding words written out from 30_encoding.md R55 and R63 -/

theorem test_decode_alu :
    decode ⟨0b10100000#8, 0b00000001#8, 0b00000010#8⟩ = .ok (.add 1#8 2#8) ∧
    decode ⟨0b10100111#8, 0b00000111#8, 0b00000000#8⟩ = .ok (.cmp 7#8 0#8) := by decide
theorem test_decode_data :
    decode ⟨0b10000010#8, 0b00000000#8, 0b00101010#8⟩ = .ok (.ldi 0#8 42#8) ∧
    decode ⟨0b00000001#8, 0xFF#8, 0xFF#8⟩ = .ok .hlt := by decide
theorem test_decode_stack :
    decode ⟨0b01000101#8, 0b00000111#8, 0x00#8⟩ = .ok (.push 7#8) ∧
    decode ⟨0b01000110#8, 0b00000011#8, 0x99#8⟩ = .ok (.pop 3#8) := by decide
theorem test_decode_control :
    decode ⟨0b01010100#8, 0b00000011#8, 0x00#8⟩ = .ok (.jmp 3#8) ∧
    decode ⟨0b01010110#8, 0b00001001#8, 0x00#8⟩ = .ok (.jne 9#8) := by decide

/-- The table's numbering: the first byte is the low byte (20_memory.md R35); an index of 8 is still recognised as ADD. -/
theorem test_decodeTableWord :
    decodeTableWord 24 0x0201A0 = some (.add 1#8 2#8) ∧ decodeTableWord 8 0xA0 = some (.add 0#8 0#8) ∧
    decodeTableWord 16 0x0856 = some (.jne 8#8) ∧ decodeTableWord 8 0xA8 = none := by decide

/-- The placed word is what the next step runs: LDI R0,42 (V-LDI-1); and a core that cannot fetch is made to. -/
theorem test_withFetchWord :
    probe (step (State.reset.withFetchWord 24 0x2A0082)) (fun s => (s.reg 0, s.pc)) = some (42#8, 3#9) ∧
    probe (step (((State.reset.setPc 257#9).setRun false).withFetchWord 8 0x01)) (fun s => (s.run, s.pc)) =
      some (false, 1#9) := by decide

/-! ### Memory -/

/-- Writing what an unlisted address reads as unlists it, and a later write finds its place (20_memory.md R32). -/
theorem test_memory_canonical :
    ((Memory.write [] 5 7#8).write 3 9#8).write 200 1#8 = [(3, 9#8), (5, 7#8), (200, 1#8)] ∧
    (Memory.write [(3, 9#8), (5, 7#8)] 3 0#8) = [(5, 7#8)] ∧ Memory.read [(5, 7#8)] 3 = 0#8 := by decide

/-! ### One step each -/

/-- V-ADD-3: 200 + 100 gives 44, pc 3, the flags as they were. -/
theorem test_add_wraps :
    probe (step ((((boot [0xA0#8, 0#8, 1#8]).setReg 0 200#8).setReg 1 100#8).setFl ⟨true, false, false⟩))
      (fun s => (s.reg 0, s.reg 1, s.pc, s.fl.l)) = some (44#8, 100#8, 3#9, true) := by decide
/-- V-ADD-10: the stack pointer is an ordinary operand, 244 + 12 gives 0. -/
theorem test_add_r7 :
    probe (step ((boot [0xA0#8, 7#8, 0#8]).setReg 0 12#8)) (fun s => (s.reg 7, s.reg 0)) = some (0#8, 12#8) := by decide
/-- V-MUL-5: 200 * 200 gives 64, not 160 (90_conflicts.md C1). -/
theorem test_mul_low_byte :
    probe (step (((boot [0xA2#8, 0#8, 1#8]).setReg 0 200#8).setReg 1 200#8)) (fun s => s.reg 0) = some 64#8 := by decide
/-- V-MUL-11: the same register twice squares it, 28 gives 16. -/
theorem test_mul_square :
    probe (step ((boot [0xA2#8, 0#8, 0#8]).setReg 0 28#8)) (fun s => s.reg 0) = some 16#8 := by decide
/-- V-DIV-8: unsigned, 128 / 127 gives 1; and the example of R93, 200 / 7 gives 28 in the first operand. -/
theorem test_div_quotient :
    probe (step (((boot [0xA3#8, 0#8, 1#8]).setReg 0 128#8).setReg 1 127#8)) (fun s => s.reg 0) = some 1#8 ∧
    probe (step (((boot [0xA3#8, 1#8, 0#8]).setReg 1 200#8).setReg 0 7#8)) (fun s => (s.reg 1, s.reg 0)) =
      some (28#8, 7#8) := by decide
/-- V-DIV-9: DivideByZero, the destination as it was, pc 3, RUN 1. -/
theorem test_div_zero :
    probe (step ((boot [0xA3#8, 0#8, 1#8]).setReg 0 5#8)) (fun s => (s.fault, s.reg 0, s.pc, s.run)) =
      some (.divideByZero, 5#8, 3#9, true) := by decide
/-- V-CMP-4: no signed reading, 128 against 127 gives G. -/
theorem test_cmp_unsigned :
    probe (step (((boot [0xA7#8, 0#8, 1#8]).setReg 0 128#8).setReg 1 127#8)) (fun s => (s.fl, s.reg 0)) =
      some (⟨false, true, false⟩, 128#8) := by decide
/-- V-CMP-10: the old E is cleared. -/
theorem test_cmp_clears :
    probe (step (((boot [0xA7#8, 0#8, 1#8]).setReg 1 255#8).setFl ⟨false, false, true⟩)) (fun s => s.fl) =
      some ⟨true, false, false⟩ := by decide
/-- V-LDI-3: the stack pointer moves; V-LDI-5: index 8 faults with pc 3. -/
theorem test_ldi :
    probe (step (boot [0x82#8, 7#8, 9#8])) (fun s => (s.reg 7, s.pc)) = some (9#8, 3#9) ∧
    probe (step (boot [0x82#8, 8#8, 1#8])) (fun s => (s.fault, s.pc)) = some (.registerIndexOutOfRange, 3#9) := by decide
/-- V-PRN-3: the reset stack pointer is printed, 244. -/
theorem test_prn : probe (step (boot [0x47#8, 7#8])) (fun s => (s.out, s.pc)) = some ([244#8], 2#9) := by decide
/-- The text of the output: decimal, no sign, no leading zeros (42_data_io.md R101). -/
theorem test_output_text : ((State.reset.emit 42#8).emit 0#8).outputLines = ["42", "0"] := by decide
/-- V-HLT-2: the bytes after HLT are ignored. -/
theorem test_hlt :
    probe (step (boot [0x01#8, 0xFF#8, 0xFF#8])) (fun s => (s.status, s.pc, s.out)) = some (.halted, 1#9, []) := by decide
/-- V-HLT-3 and V-HLT-4: 253 is the last address from which anything executes. -/
theorem test_hlt_at_top :
    probe (step ((State.reset.memWrite 253#8 1#8).setPc 253#9)) (fun s => (s.run, s.pc)) = some (false, 254#9) ∧
    probe (step ((State.reset.memWrite 254#8 1#8).setPc 254#9)) (fun s => (s.fault, s.pc, s.run)) =
      some (.addressOutOfRange, 254#9, true) := by decide
/-- V-STK-2: PUSH R7 stores the decremented pointer. -/
theorem test_push_r7 :
    probe (step (boot [0x45#8, 7#8])) (fun s => (s.reg 7, s.memRead 0xF3#8)) = some (0xF3#8, 0xF3#8) := by decide
/-- V-STK-3 and V-STK-4: no wrap at 0; the push to address 0 is the last legal one. -/
theorem test_push_bottom :
    probe (step (((boot [0x45#8, 0#8]).setReg 7 0#8).setReg 0 9#8)) (fun s => (s.fault, s.reg 7, s.pc)) =
      some (.addressOutOfRange, 0#8, 2#9) ∧
    probe (step (((((State.reset.memWrite 3#8 0x45#8).memWrite 4#8 0#8).setPc 3#9).setReg 7 1#8).setReg 0 9#8))
      (fun s => (s.reg 7, s.memRead 0#8, s.pc)) = some (0#8, 9#8, 5#9) := by decide
/-- V-STK-7 and V-STK-8: POP R7 ends with the loaded byte plus 1; no wrap when that byte is 255. -/
theorem test_pop_r7 :
    probe (step ((boot [0x46#8, 7#8]).memWrite 0xF4#8 0x80#8)) (fun s => s.reg 7) = some 0x81#8 ∧
    probe (step ((boot [0x46#8, 7#8]).memWrite 0xF4#8 0xFF#8)) (fun s => (s.fault, s.reg 7, s.pc)) =
      some (.addressOutOfRange, 0xF4#8, 2#9) := by decide
/-- V-STK-9 and V-STK-10: the highest legal pop, and the pop past the top. -/
theorem test_pop_top :
    probe (step (((boot [0x46#8, 0#8]).setReg 7 254#8).memWrite 254#8 7#8)) (fun s => (s.reg 0, s.reg 7)) =
      some (7#8, 255#8) ∧
    probe (step (((boot [0x46#8, 0#8]).setReg 7 255#8).memWrite 255#8 7#8)) (fun s => (s.fault, s.reg 0, s.reg 7)) =
      some (.addressOutOfRange, 0#8, 255#8) := by decide
/-- V-JMP-1. -/
theorem test_jmp : probe (step ((boot [0x54#8, 0#8]).setReg 0 0x40#8)) (fun s => s.pc) = some 0x40#9 := by decide
/-- V-JEQ-1 and V-JEQ-2. -/
theorem test_jeq :
    probe (step (((boot [0x55#8, 0#8]).setReg 0 0x40#8).setFl ⟨false, false, true⟩)) (fun s => s.pc) = some 0x40#9 ∧
    probe (step (((boot [0x55#8, 0#8]).setReg 0 0x40#8).setFl ⟨true, false, false⟩)) (fun s => s.pc) = some 2#9 := by decide
/-- V-JEQ-5: the index is checked although the jump would not be taken. -/
theorem test_jeq_bad_index :
    probe (step (boot [0x55#8, 9#8])) (fun s => (s.fault, s.pc)) = some (.registerIndexOutOfRange, 2#9) := by decide
/-- V-JNE-3 and V-JNE-4. -/
theorem test_jne :
    probe (step (((boot [0x56#8, 0#8]).setReg 0 0x40#8).setFl ⟨false, false, true⟩)) (fun s => s.pc) = some 2#9 ∧
    probe (step ((boot [0x56#8, 0#8]).setReg 0 0x40#8)) (fun s => s.pc) = some 0x40#9 := by decide
/-- V-FD-1, V-FD-2, V-FD-3: unassigned opcodes, pc advanced by 1, 3 and 4. -/
theorem test_unassigned :
    probe (step State.reset) (fun s => (s.fault, s.pc)) = some (.unsupportedOperation, 1#9) ∧
    probe (step (boot [0xA8#8, 9#8, 9#8])) (fun s => (s.fault, s.pc)) = some (.unsupportedOperation, 3#9) ∧
    probe (step (boot [0xC5#8])) (fun s => (s.fault, s.pc)) = some (.unsupportedOperation, 4#9) := by decide
/-- V-FD-6 and V-STK-11: the index check comes before the zero divisor and before the stack check. -/
theorem test_priority :
    probe (step (boot [0xA3#8, 9#8, 1#8])) (fun s => s.fault) = some .registerIndexOutOfRange ∧
    probe (step ((boot [0x45#8, 8#8]).setReg 7 0#8)) (fun s => s.fault) = some .registerIndexOutOfRange := by decide
/-- V-FD-8 and V-FD-9: pc 256 after LDI at 253; pc 257, the largest reachable, after an unassigned opcode at 253. -/
theorem test_pc_past_end :
    probe (step ((((State.reset.memWrite 253#8 0x82#8).memWrite 255#8 7#8).setPc 253#9))) (fun s => (s.reg 0, s.pc)) =
      some (7#8, 256#9) ∧
    probe (step ((State.reset.memWrite 253#8 0xFF#8).setPc 253#9)) (fun s => (s.fault, s.pc)) =
      some (.unsupportedOperation, 257#9) := by decide
/-- P5: the pushed byte is fetched as the next opcode. -/
theorem test_self_modifying :
    probe (step ((((boot [0x45#8, 0#8]).setReg 0 1#8).setReg 7 3#8))) (fun s => (s.fetchedAt 2#9).ir) = some 1#8 := by decide

/-! ### Loader and block -/

/-- A line with blanks and a comment, a comment line, a blank line and a bare literal (30_encoding.md R60, S9). -/
theorem test_object_file :
    parseObject ['1', '0', '0', '0', '0', '0', '1', '0', ' ', '#', 'L', '\n', '#', '1', '\n', '\n', '0', '0', '1', '1'] =
      some [0x82#8, 3#8] := by decide
/-- Lines that hold no 8-bit binary literal are refused (93_implementation_defined.md U13). -/
theorem test_object_file_refused :
    parseObject ['1', '0', '2'] = none ∧ parseObject ['1', '0', '0', '0', '0', '0', '0', '0', '0'] = none := by decide
/-- An image of 257 bytes is refused whole (70_reset_and_hazards.md R161). -/
theorem test_long_image : (launch (List.replicate 257 1#8)).isNone := by
  have h : ¬ (List.replicate 257 (1#8 : Byte)).length ≤ Config.memSize := by rw [List.length_replicate]; decide
  rw [launch, State.loadImage, if_neg h]
  rfl
/-- The inspection outputs at reset (70_reset_and_hazards.md R171): not halted, fault code 0, flags 000, pc 0. -/
theorem test_outputs :
    let o := State.reset.outputs
    o.halted = false ∧ o.fault = 0#3 ∧ o.dbgFl = 0#3 ∧ o.dbgPc = 0#9 := by decide
/-- `FL[2:0]` is L, G, E, and the fault codes are 1 to 4 (10_state.md R17, R21). -/
theorem test_layout :
    Flags.bits ⟨true, false, false⟩ = 4#3 ∧ Flags.bits ⟨false, true, false⟩ = 2#3 ∧ Flags.bits ⟨false, false, true⟩ = 1#3 ∧
    FaultCode.code .divideByZero = 1#3 ∧ FaultCode.code .registerIndexOutOfRange = 4#3 := by decide

/-! ### Witnesses: a concrete state and operands that meet all hypotheses of a statement -/

/-- One instruction of every constructor, each well formed. -/
def sample : List Instr :=
  [.add 0#8 1#8, .mul 0#8 1#8, .div 0#8 7#8, .cmp 0#8 1#8, .ldi 0#8 255#8, .prn 7#8, .hlt, .push 0#8, .pop 0#8, .jmp 0#8,
   .jeq 0#8, .jne 0#8]

/-- EncodeAfterDecode. -/
theorem witness_EncodeAfterDecode : defaultOpcodes.WellFormed ∧ decodeWith defaultOpcodes ⟨0x47#8, 3#8, 9#8⟩ = .ok (.prn 3#8) := by
  decide
/-- UnusedFetchedBytesHaveNoInfluence, both clauses: operand counts 1 and 0. -/
theorem witness_UnusedFetchedBytes :
    ((0x47#8).extractLsb' 6 2).toNat ≤ 1 ∧ ((0x01#8).extractLsb' 6 2).toNat = 0 := by decide
/-- StepRunsDecodedInstruction, at the boundary pc 253. -/
theorem witness_StepRunsDecodedInstruction :
    let s := (State.reset.memWrite 253#8 0x47#8).setPc 253#9
    s.status = .running ∧ s.pc.toNat ≤ 253 ∧ s.mem.read s.pc.toNat = 0x47#8 ∧ s.mem.read (s.pc.toNat + 1) = 0#8 ∧
    s.mem.read (s.pc.toNat + 2) = 0#8 ∧ decode ⟨0x47#8, 0#8, 0#8⟩ = .ok (.prn 0#8) := by decide
/-- StepRunsEncodedInstruction and the first clause of every result statement (RunsAs), for every instruction. -/
theorem witness_RunsAs : ∀ i ∈ sample,
    (boot (encode i)).status = .running ∧ (boot (encode i)).pc.toNat ≤ 253 ∧ (boot (encode i)).Holds (encode i) := by
  unfold State.Holds
  decide
/-- FetchPastEndRaises, at the boundary pc 254. -/
theorem witness_FetchPastEndRaises : (State.reset.setPc 254#9).status = .running ∧ (State.reset.setPc 254#9).pc.toNat > 253 := by
  decide
/-- UnassignedOpcodeRaises. -/
theorem witness_UnassignedOpcodeRaises :
    let s := boot [0xA8#8, 9#8, 9#8]
    s.status = .running ∧ s.pc.toNat ≤ 253 ∧ s.mem.read s.pc.toNat ∉ defaultOpcodes.assigned := by decide
/-- StoppedCoreNeverChanges: a Halted and a Faulted core. -/
theorem witness_StoppedCoreNeverChanges :
    (State.reset.setRun false).status ≠ .running ∧ (State.reset.setFault .divideByZero).status ≠ .running := by decide
/-- DivWritesQuotientOrRaises, both clauses. -/
theorem witness_DivWritesQuotientOrRaises : State.reset.reg 7 ≠ 0#8 ∧ State.reset.reg 0 = 0#8 := by decide
/-- HltClearsRun: no fault recorded. -/
theorem witness_HltClearsRun : State.reset.fault = .noFault := by decide
/-- PushStoresBelowStackPointer and PushAtZeroRaises, at the boundary values 1 and 0. -/
theorem witness_Push : (State.reset.setReg 7 1#8).reg 7 ≠ 0#8 ∧ (State.reset.setReg 7 0#8).reg 7 = 0#8 := by decide
/-- PopLoadsFromStackPointer, both clauses at 254. -/
theorem witness_PopLoadsFromStackPointer :
    (State.reset.setReg 7 254#8).reg 7 ≠ 255#8 ∧
    (State.reset.memWrite 0xF4#8 254#8).mem.read ((State.reset.memWrite 0xF4#8 254#8).reg 7).toNat ≠ 255#8 := by decide
/-- PopPastTopRaises, both clauses. -/
theorem witness_PopPastTopRaises :
    (State.reset.setReg 7 255#8).reg 7 = 255#8 ∧
    (State.reset.memWrite 0xF4#8 255#8).mem.read ((State.reset.memWrite 0xF4#8 255#8).reg 7).toNat = 255#8 := by decide
/-- The four frames: every instruction answers a next state at reset. -/
theorem witness_frames : ∀ i ∈ sample, (probe (exec i State.reset) fun _ => ()) = some () := by decide
/-- BadRegisterIndexRaises. -/
theorem witness_BadRegisterIndexRaises : ¬ (Instr.jeq 8#8).WellFormed := by decide
/-- OnlyDivRaisesDivideByZero, both clauses. -/
theorem witness_OnlyDivRaisesDivideByZero :
    State.reset.reg 1 = 0#8 ∧ ∃ t, exec (.div 0#8 1#8) State.reset = .next t ∧ State.reset.fault ≠ .divideByZero ∧
      t.fault = .divideByZero := ⟨by decide, _, rfl, by decide, rfl⟩
/-- FaultsArePrecise and FaultIsFirstInPriorityOrder: an unassigned opcode at 0, and the fetch at 254. -/
theorem witness_FaultsArePrecise :
    (State.reset.status = .running ∧ ∃ t, step State.reset = .next t ∧ t.fault ≠ .noFault) ∧
    ((State.reset.setPc 254#9).status = .running ∧ ∃ t, step (State.reset.setPc 254#9) = .next t ∧ t.fault ≠ .noFault) :=
  ⟨⟨by decide, _, rfl, by decide⟩, by decide, _, rfl, by decide⟩
/-- The rules over every step (OnlyCmpWritesFlags, OnlyHltClearsRun, OnlyPushWritesMemory, OnlyPrnEmits,
StepHaltsExactlyOnHlt, SequentialFlowUnlessJump), for every instruction, from a Running core with pc 0. -/
theorem witness_step : ∀ i ∈ sample,
    (boot (encode i)).status = .running ∧ (boot (encode i)).pc.toNat ≤ 253 ∧
    (probe (step (boot (encode i))) fun _ => ()) = some () := by decide
/-- StepFaultsExactlyWhenRaised, each clause: the fetch at 254, PUSH at 0, POP R0 at 255, POP R7 on a byte of 255, an
unassigned opcode, a bad index, DIV by zero. -/
theorem witness_StepFaultsExactlyWhenRaised :
    let faults (s : State) (f : FaultCode) := s.status = .running ∧ probe (step s) State.status = some (.faulted f)
    faults (State.reset.setPc 254#9) .addressOutOfRange ∧
    faults ((boot [0x45#8, 0#8]).setReg 7 0#8) .addressOutOfRange ∧
    faults ((boot [0x46#8, 0#8]).setReg 7 255#8) .addressOutOfRange ∧
    faults ((boot [0x46#8, 7#8]).memWrite 0xF4#8 255#8) .addressOutOfRange ∧
    faults (boot [0xA8#8]) .unsupportedOperation ∧ faults (boot [0xA0#8, 0#8, 8#8]) .registerIndexOutOfRange ∧
    faults (boot [0xA3#8, 0#8, 1#8]) .divideByZero := by decide
/-- RunEndsByHltOrRaise, both ends: the run of a single HLT and the run of the empty image end after one step. -/
theorem witness_RunEndsByHltOrRaise :
    State.reset.status = .running ∧ (boot [0x01#8]).status = .running ∧
    (∃ t, EndsIn (boot [0x01#8]) 1 t ∧ t.status = .halted) ∧
    ∃ t, EndsIn State.reset 1 t ∧ t.status = .faulted .unsupportedOperation := by
  refine ⟨rfl, rfl, ⟨_, ⟨rfl, by decide, fun k hk => ?_⟩, rfl⟩, ⟨_, ⟨rfl, by decide, fun k hk => ?_⟩, rfl⟩⟩ <;>
  · obtain rfl : k = 0 := by omega
    exact ⟨_, rfl, rfl⟩
/-- OutputOnlyGrows: one step of PRN R7. -/
theorem witness_OutputOnlyGrows : ∃ t, runSteps 1 (boot [0x47#8, 7#8]) = .next t ∧ t.out = [0xF4#8] := ⟨_, rfl, by decide⟩
/-- StepKeepsInvariant, from a state in the middle of a run: a byte of code, pc 3, E set. -/
theorem witness_StepKeepsInvariant :
    let s := ((boot [0#8, 0#8, 0#8, 0x45#8]).setPc 3#9).setFl ⟨false, false, true⟩
    s.Inv ∧ (probe (step s) fun _ => ()) = some () := by decide
/-- RunsKeepInvariant, LaunchStateOfImage and LoadPortDeliversLaunchState: an image of one byte. -/
theorem witness_launch : ∃ s, launch [0x01#8] = some s ∧ ∃ t, runSteps 1 s = .next t := ⟨_, rfl, _, rfl⟩
/-- StepWritesOnlyListedBytes: a PUSH writes 0xF3 and not 0xF4. -/
theorem witness_StepWritesOnlyListedBytes :
    (probe (step (boot [0x45#8, 0#8])) fun _ => ()) = some () ∧
    .write 0xF4#8 ∉ stepAccesses defaultOpcodes (boot [0x45#8, 0#8]) ∧
    .write 0xF3#8 ∈ stepAccesses defaultOpcodes (boot [0x45#8, 0#8]) := by decide
/-- StepDependsOnlyOnListedReads: POP R0 reads 0, 1, 2 and 0xF4; a memory that differs at 9 agrees on those. -/
theorem witness_StepDependsOnlyOnListedReads :
    let s := boot [0x46#8, 0#8]
    stepAccesses defaultOpcodes s = [.read 0#8, .read 1#8, .read 2#8, .read 0xF4#8] ∧
    (∀ a ∈ [0#8, 1#8, 2#8, 0xF4#8], (s.mem.write 9 5#8).read (BitVec.toNat a) = s.mem.read (BitVec.toNat a)) ∧
    (s.mem.write 9 5#8).read 9 ≠ s.mem.read 9 := by decide
/-- PushedByteIsFetched, each clause: the pushed byte as opcode, operand a, operand b, right after the PUSH; and after one
step that writes another address (the next PUSH, to 0xF2). -/
theorem witness_PushedByteIsFetched :
    State.reset.reg 7 ≠ 0#8 ∧ (∃ t, exec (.push (regByte 0)) State.reset = .next t ∧
      (0xF3#9).toNat = (t.reg 7).toNat ∧ (0xF2#9).toNat + 1 = (t.reg 7).toNat ∧ (0xF1#9).toNat + 2 = (t.reg 7).toNat ∧
      (0xF3#9).toNat ≤ 253) ∧
    ∃ t, exec (.push (regByte 0)) (boot [0x45#8, 1#8]) = .next t ∧ (∃ u, runSteps 1 t = .next u) ∧
      stepAccesses defaultOpcodes t = [.read 0#8, .read 1#8, .read 2#8, .write 0xF2#8] ∧ t.reg 7 = 0xF3#8 :=
  ⟨by decide, ⟨_, rfl, by decide, by decide, by decide, by decide⟩, _, rfl, ⟨_, rfl⟩, by decide, by decide⟩
/-- StackIsLastInFirstOut: three registers pushed, three others popped, with a stack pointer of exactly 3; the first pop
(`k = 0`), a middle one and the last (`k = 2`). -/
theorem witness_StackIsLastInFirstOut :
    let rs : List (Fin 8) := [0, 1, 2]
    let qs : List (Fin 8) := [3, 4, 5]
    rs.length = qs.length ∧ (7 : Fin 8) ∉ rs ∧ (7 : Fin 8) ∉ qs ∧ rs.length ≤ ((State.reset.setReg 7 3#8).reg 7).toNat ∧
    (rs[rs.length - 1 - 0]? = some 2 ∧ qs[0]? = some 3) ∧ (rs[rs.length - 1 - 1]? = some 1 ∧ qs[1]? = some 4) ∧
    (rs[rs.length - 1 - 2]? = some 0 ∧ qs[2]? = some 5) := by decide
/-- StackCapacityFromReset: the reset state and register 0. -/
theorem witness_StackCapacityFromReset : (0 : Fin 8) ≠ 7 ∧ State.reset.reg 7 = 0xF4#8 := by decide
/-- ResetValues: values of the parameters other than the defaults. -/
theorem witness_ResetValues : ∃ s, s = State.resetWith 0xAA#8 ⟨true, false, false⟩ := ⟨_, rfl⟩
/-- LaunchedBlockEvents: each of the four events is answered. -/
theorem witness_LaunchedBlockEvents :
    ∀ ev ∈ [Event.load 9#8 5#8, .release, .reset, .step],
      (match Block.apply defaultOpcodes ⟨State.reset, false⟩ ev with | .next _ => true | _ => false) = true := by decide

end Sys2Proof.Tests
end

/-! ### RUN (10_state.md R20) -/

namespace Sys2Proof.Machine

/-- Of all the ways an instruction can act, only HLT's touches RUN. A bad register index may be any instruction's, but
it records a fault and leaves RUN alone. -/
theorem Does.run_eq_or_hlt {i : Instr} {s t : State} (h : Does i s t) :
    t.run = s.run ∨ (i = .hlt ∧ t.run = false) := by
  cases h with
  | hlt => exact .inr ⟨rfl, State.setRun_run s false⟩
  | _ => exact .inl rfl

/-- Settles O36: no stage before the execution touches RUN, and of the instructions only HLT does. -/
theorem onlyHltClearsRun : Obligations.OnlyHltClearsRun := by
  refine ⟨rfl, fun o s t h => ?_⟩
  rcases stepWith_cases h with ⟨-, rfl⟩ | ⟨-, -, rfl⟩ | ⟨-, -, ⟨e, -, rfl⟩ | ⟨i, hdecode, hexec⟩⟩
  · exact .inl rfl
  · exact .inl (s.setFault_run _)
  · exact .inl (by simp)
  · rcases (exec_does hexec).run_eq_or_hlt with hrun | ⟨rfl, hrun⟩
    · exact .inl (by simpa using hrun)
    · exact .inr ⟨hdecode, hrun⟩

end Sys2Proof.Machine

/-! ### The bytes of an instruction run as it (30_encoding.md R63, 40_fetch_dispatch.md R72 to R77) -/

namespace Sys2Proof

/-- The converse of `decodeWith_decodes`: the class bit leads to the table that knows the opcode, and since the opcodes
are distinct no earlier entry of that table takes it (30_encoding.md R56). The table tests the opcodes in another order
than R56 lists them, so distinctness is used in both directions. -/
theorem Decodes.decodeWith_eq {o : Opcodes} (ho : o.WellFormed) {f : Fetched} {i : Instr} (h : Decodes o f i) :
    decodeWith o f = .ok i := by
  obtain ⟨halu, hhandler⟩ := isAluClass_assigned ho
  have hne := ho.1
  have hne_symm := List.nodup_reverse.2 ho.1
  simp only [Opcodes.assigned, Opcodes.alu, Opcodes.handlers, Opcodes.oneRegister, List.cons_append, List.nil_append,
    List.reverse_cons, List.reverse_nil, List.nodup_cons, List.mem_cons, not_or, forall_eq_or_imp]
    at hne hne_symm halu hhandler
  cases h with
  | add h | mul h | div h | cmp h =>
    simp [decodeWith, decodeAlu, h, halu, hne_symm]
  | ldi h | prn h | hlt h | push h | pop h | jmp h | jeq h | jne h =>
    simp [decodeWith, decodeHandler, h, hhandler, hne, hne_symm]

/-- A fetch that begins with the encoding of `i` reads as `i`. -/
theorem decodes_of_encodeWith_prefix {o : Opcodes} {f : Fetched} {i : Instr}
    (h : encodeWith o i <+: [f.ir, f.opa, f.opb]) : Decodes o f i := by
  cases i <;> simp only [encodeWith, List.cons_prefix_cons, List.nil_prefix, and_true] at h
  case add | mul | div | cmp | ldi =>
    obtain ⟨hir, rfl, rfl⟩ := h
    constructor
    exact hir.symm
  case prn | push | pop | jmp | jeq | jne =>
    obtain ⟨hir, rfl⟩ := h
    constructor
    exact hir.symm
  case hlt => exact .hlt h.symm

/-- The length law of every instruction, collected (30_encoding.md R52, R63). -/
theorem Instr.length_statement (i : Instr) : Laws.Length.Statement i := by
  cases i with
  | add a b => exact Laws.Length.add a b
  | mul a b => exact Laws.Length.mul a b
  | div a b => exact Laws.Length.div a b
  | cmp a b => exact Laws.Length.cmp a b
  | ldi a imm => exact Laws.Length.ldi a imm
  | prn a => exact Laws.Length.prn a
  | hlt => exact Laws.Length.hlt
  | push a => exact Laws.Length.push a
  | pop a => exact Laws.Length.pop a
  | jmp a => exact Laws.Length.jmp a
  | jeq a => exact Laws.Length.jeq a
  | jne a => exact Laws.Length.jne a

/-- An encoding is of one to three bytes. -/
theorem encodeWith_length_bounds (o : Opcodes) (i : Instr) :
    1 ≤ (encodeWith o i).length ∧ (encodeWith o i).length ≤ 3 := by
  cases i <;> simp [encodeWith]

end Sys2Proof

namespace Sys2Proof.Machine

/-- Up to three bytes that lie at `pc` are the first of the fetched bytes. -/
theorem State.Holds.prefix_fetchedAt {s : State} {bs : List Byte} (h : s.Holds bs) (hp : s.pc.toNat ≤ 253)
    (hl : bs.length ≤ 3) :
    bs <+: [(s.fetchedAt s.pc).ir, (s.fetchedAt s.pc).opa, (s.fetchedAt s.pc).opb] := by
  rw [s.fetchedAt_eq s.pc hp, List.prefix_iff_getElem]
  refine ⟨hl, fun k hk => ?_⟩
  rw [← h k hk]
  match k, (by omega : k < 3) with
  | 0, _ | 1, _ | 2, _ => rfl

/-- The encoding of `i` runs as `i`, for every opcode assignment that meets R56: it is what is fetched, it decodes to `i`,
and the pre-advance passes exactly its bytes. -/
theorem runsAs_encodeWith {o : Opcodes} (ho : o.WellFormed) (i : Instr) : RunsAs o (encodeWith o i) i := by
  intro s hrun hpc hbytes
  obtain ⟨hpos, hle⟩ := encodeWith_length_bounds o i
  have hprefix := hbytes.prefix_fetchedAt hpc hle
  have hdecode := (decodes_of_encodeWith_prefix hprefix).decodeWith_eq ho
  have hlength : instrLength (s.fetchedAt s.pc).ir = (encodeWith o i).length := by
    obtain ⟨hformat, hfirst⟩ := i.length_statement o ho
    rw [hformat, ← hfirst, List.getD_eq_getElem _ _ hpos, hprefix.getElem hpos]
    rfl
  rw [stepWith_fetched o s hrun hpc, State.runFetched, hdecode]
  simp only [State.preAdvance_eq, hlength]
  rfl

/-! ### The ALU instructions (41_alu.md) -/

/-- ADD of registers writes the sum and nothing else (41_alu.md R91). -/
theorem exec_add_regByte (ra rb : Fin 8) (s : State) :
    exec (.add (regByte ra) (regByte rb)) s = .next (s.setReg ra (aluAdd (s.reg ra) (s.reg rb))) :=
  withRegs_regByte ra rb s _

/-- MUL of registers writes the low byte of the product and nothing else (41_alu.md R92). -/
theorem exec_mul_regByte (ra rb : Fin 8) (s : State) :
    exec (.mul (regByte ra) (regByte rb)) s = .next (s.setReg ra (aluMul (s.reg ra) (s.reg rb))) :=
  withRegs_regByte ra rb s _

/-- CMP of registers writes the flags and nothing else (41_alu.md R94). -/
theorem exec_cmp_regByte (ra rb : Fin 8) (s : State) :
    exec (.cmp (regByte ra) (regByte rb)) s = .next (s.setFl (compareFlags (s.reg ra) (s.reg rb))) :=
  withRegs_regByte ra rb s _

@[simp] theorem aluAdd_toNat (u v : Byte) : (aluAdd u v).toNat = (u.toNat + v.toNat) % 256 :=
  BitVec.toNat_ofNat ..

@[simp] theorem aluMul_toNat (u v : Byte) : (aluMul u v).toNat = (u.toNat * v.toNat) % 256 :=
  BitVec.toNat_ofNat ..

theorem compareFlags_of_lt {u v : Byte} (h : u.toNat < v.toNat) : compareFlags u v = ⟨true, false, false⟩ :=
  if_pos h

theorem compareFlags_of_gt {u v : Byte} (h : u.toNat > v.toNat) : compareFlags u v = ⟨false, true, false⟩ := by
  rw [compareFlags, if_neg h.not_gt, if_pos h]
  rfl

theorem compareFlags_of_eq {u v : Byte} (h : u.toNat = v.toNat) : compareFlags u v = ⟨false, false, true⟩ := by
  rw [compareFlags, if_neg h.not_lt, if_neg h.not_gt]
  rfl

/-- Each flag after a comparison tells its relation, and exactly one is set: the three relations exclude each other and
one of them holds (41_alu.md R94). -/
theorem compareFlags_spec (u v : Byte) :
    ((compareFlags u v).l = true ↔ u.toNat < v.toNat) ∧
    ((compareFlags u v).g = true ↔ u.toNat > v.toNat) ∧
    ((compareFlags u v).e = true ↔ u.toNat = v.toNat) ∧ (compareFlags u v).exactlyOne := by
  rcases lt_trichotomy u.toNat v.toNat with h | h | h
  · simp [compareFlags_of_lt h, Flags.exactlyOne, h, h.le, h.ne]
  · simp [compareFlags_of_eq h, Flags.exactlyOne, h]
  · simp [compareFlags_of_gt h, Flags.exactlyOne, h, h.le, h.ne']

/-- Settles O13: the encoding runs as ADD, and the byte written is `aluAdd`. -/
theorem addWritesSumModulo256 : Obligations.AddWritesSumModulo256 := fun _ ho ra rb =>
  ⟨runsAs_encodeWith ho (.add (regByte ra) (regByte rb)), fun s =>
    ⟨_, aluAdd_toNat (s.reg ra) (s.reg rb), exec_add_regByte ra rb s⟩⟩

/-- Settles O14: the encoding runs as MUL, and the byte written is `aluMul`. -/
theorem mulWritesLowByteOfProduct : Obligations.MulWritesLowByteOfProduct := fun _ ho ra rb =>
  ⟨runsAs_encodeWith ho (.mul (regByte ra) (regByte rb)), fun s =>
    ⟨_, aluMul_toNat (s.reg ra) (s.reg rb), exec_mul_regByte ra rb s⟩⟩

/-- Settles O16: the encoding runs as CMP, and the flags written are `compareFlags`. -/
theorem cmpSetsExactlyOneFlag : Obligations.CmpSetsExactlyOneFlag := fun _ ho ra rb =>
  ⟨runsAs_encodeWith ho (.cmp (regByte ra) (regByte rb)), fun s =>
    ⟨_, exec_cmp_regByte ra rb s, compareFlags_spec (s.reg ra) (s.reg rb)⟩⟩

end Sys2Proof.Machine

/-! ### Data movement (42_data_io.md) -/

namespace Sys2Proof.Machine

/-- LDI into a register writes the immediate, whatever byte it is, and nothing else (42_data_io.md R100). -/
theorem exec_ldi_regByte (ra : Fin 8) (imm : Byte) (s : State) :
    exec (.ldi (regByte ra) imm) s = .next (s.setReg ra imm) :=
  withReg_regByte ra s _

/-- Settles O17: the encoding runs as LDI, and LDI writes the immediate. -/
theorem ldiWritesImmediate : Obligations.LdiWritesImmediate := fun _ ho ra imm =>
  ⟨runsAs_encodeWith ho (.ldi (regByte ra) imm), exec_ldi_regByte ra imm⟩

end Sys2Proof.Machine

/-! ### Jumps (44_control_flow.md) -/

namespace Sys2Proof.Machine

/-- Every byte fits the program counter, so the target is the register's value (44_control_flow.md R120). -/
@[simp] theorem State.jumpTarget_toNat (s : State) (r : Fin 8) : (s.jumpTarget r).toNat = (s.reg r).toNat :=
  BitVec.toNat_setWidth_of_le (by decide)

/-- JMP through a register loads the target into `pc`, whatever the flags, and changes nothing else
(44_control_flow.md R121). -/
theorem exec_jmp_regByte (ra : Fin 8) (s : State) :
    exec (.jmp (regByte ra)) s = .next (s.setPc (s.jumpTarget ra)) :=
  withReg_regByte ra s _

/-- Settles O24: the encoding runs as JMP, and the `pc` loaded is the jump target. -/
theorem jmpSetsPc : Obligations.JmpSetsPc := fun _ ho ra =>
  ⟨runsAs_encodeWith ho (.jmp (regByte ra)), fun s =>
    ⟨_, s.jumpTarget_toNat ra, exec_jmp_regByte ra s⟩⟩

end Sys2Proof.Machine

/-! ### Unassigned opcodes (60_exceptions.md R132) -/

namespace Sys2Proof

/-- The opcode byte of whatever reads as an instruction is one of the twelve (30_encoding.md R57). -/
theorem Decodes.ir_mem_assigned {o : Opcodes} {f : Fetched} {i : Instr} (h : Decodes o f i) : f.ir ∈ o.assigned := by
  cases h with
  | _ h => simp [h, Opcodes.assigned, Opcodes.alu, Opcodes.handlers, Opcodes.oneRegister]

/-- An unassigned opcode is rejected by name, whatever the operand bytes are. -/
theorem decodeWith_eq_error_of_not_assigned {o : Opcodes} {f : Fetched} (h : f.ir ∉ o.assigned) :
    decodeWith o f = .error (.unsupportedOperation f.ir) := by
  cases hdecode : decodeWith o f with
  | ok i => exact absurd (decodeWith_decodes hdecode).ir_mem_assigned h
  | error e => rw [decodeWith_error hdecode]

end Sys2Proof

namespace Sys2Proof.Machine

/-- The step on a rejected fetch: the pre-advance, then the fault. -/
theorem State.runFetched_of_decodeWith_error {o : Opcodes} {f : Fetched} {e : DecodeError} (s : State)
    (h : decodeWith o f = .error e) :
    s.runFetched o f = .next ((s.preAdvance f.ir).setFault .unsupportedOperation) := by
  rw [State.runFetched, h]
  rfl

/-- The length as a 9-bit word is 1 and the operand count widened (30_encoding.md R52). -/
theorem ofNat_instrLength (ir : Byte) :
    BitVec.ofNat 9 (instrLength ir) = 1#9 + (ir.extractLsb' 6 2).setWidth 9 := by
  rw [instrLength, operandCount, BitVec.ofNat_add, BitVec.ofNat_toNat]

/-- Settles O10: the decoder rejects the fetch by its opcode byte alone, after the pre-advance. The conditions of R56 play
no part. -/
theorem unassignedOpcodeRaises : Obligations.UnassignedOpcodeRaises := by
  intro o _ s hrun hpc hir
  have hfetched := s.fetchedAt_eq s.pc hpc
  have hdecode : decodeWith o (s.fetchedAt s.pc) = .error _ :=
    decodeWith_eq_error_of_not_assigned (by rwa [hfetched])
  rw [stepWith_fetched o s hrun hpc, s.runFetched_of_decodeWith_error hdecode, hfetched, State.preAdvance_eq,
    ofNat_instrLength, ← BitVec.add_assoc]
  rfl

end Sys2Proof.Machine

/-! ### Encoding and decoding (30_encoding.md) -/

namespace Sys2Proof

/-- Up to three bytes lead what is fetched from them, whatever follows them. -/
theorem Fetched.prefix_ofBytes_append {bs : List Byte} (rest : List Byte) (hle : bs.length ≤ 3) :
    bs <+: [(Fetched.ofBytes (bs ++ rest)).ir, (Fetched.ofBytes (bs ++ rest)).opa,
      (Fetched.ofBytes (bs ++ rest)).opb] := by
  match bs, hle with
  | [], _ => exact List.nil_prefix
  | [_], _ | [_, _], _ | [_, _, _], _ => simp [Fetched.ofBytes]

/-- Settles O2: the encoding leads the fetched bytes, and a fetch that begins with it decodes to the instruction. -/
theorem decodeAfterEncode : Obligations.DecodeAfterEncode := fun o ho i rest =>
  (decodes_of_encodeWith_prefix
    (Fetched.prefix_ofBytes_append rest (encodeWith_length_bounds o i).2)).decodeWith_eq ho

/-- What reads as `i` begins with the encoding of `i`; the converse of `decodes_of_encodeWith_prefix`. -/
theorem Decodes.encodeWith_prefix {o : Opcodes} {f : Fetched} {i : Instr} (h : Decodes o f i) :
    encodeWith o i <+: [f.ir, f.opa, f.opb] := by
  cases h with
  | _ h => simp [encodeWith, h]

/-- The length told by the opcode of what reads as `i` is the length of its encoding (30_encoding.md R52). -/
theorem Decodes.instrLength_eq {o : Opcodes} (ho : o.WellFormed) {f : Fetched} {i : Instr} (h : Decodes o f i) :
    instrLength f.ir = (encodeWith o i).length := by
  have hpos := (encodeWith_length_bounds o i).1
  obtain ⟨hformat, hfirst⟩ := i.length_statement o ho
  rw [hformat, ← hfirst, List.getD_eq_getElem _ _ hpos, h.encodeWith_prefix.getElem hpos]
  rfl

/-- What reads as `i` is encoded by as many of its bytes as its opcode tells. -/
theorem Decodes.encodeWith_eq_take {o : Opcodes} (ho : o.WellFormed) {f : Fetched} {i : Instr} (h : Decodes o f i) :
    encodeWith o i = [f.ir, f.opa, f.opb].take (instrLength f.ir) := by
  rw [h.instrLength_eq ho]
  exact List.prefix_iff_eq_take.1 h.encodeWith_prefix

/-- Settles O3: the encoding leads the fetched bytes and is as long as the first of them tells. -/
theorem encodeAfterDecode : Obligations.EncodeAfterDecode := fun _ ho _ _ h =>
  (decodeWith_decodes h).encodeWith_eq_take ho

/-- Each of the twelve opcodes reads as an instruction; with `Decodes.ir_mem_assigned`, no other does. -/
theorem exists_decodes_of_mem_assigned {o : Opcodes} {f : Fetched} (h : f.ir ∈ o.assigned) : ∃ i, Decodes o f i := by
  simp only [Opcodes.assigned, Opcodes.alu, Opcodes.handlers, Opcodes.oneRegister, List.cons_append,
    List.nil_append, List.mem_cons, List.not_mem_nil, or_false] at h
  rcases h with h | h | h | h | h | h | h | h | h | h | h | h
  · exact ⟨_, .add h⟩
  · exact ⟨_, .mul h⟩
  · exact ⟨_, .div h⟩
  · exact ⟨_, .cmp h⟩
  · exact ⟨_, .ldi h⟩
  · exact ⟨_, .hlt h⟩
  · exact ⟨_, .prn h⟩
  · exact ⟨_, .push h⟩
  · exact ⟨_, .pop h⟩
  · exact ⟨_, .jmp h⟩
  · exact ⟨_, .jeq h⟩
  · exact ⟨_, .jne h⟩

/-- The decoder rejects a fetch exactly when its opcode is none of the twelve (30_encoding.md R57). -/
theorem decodeWith_eq_error_iff {o : Opcodes} (ho : o.WellFormed) (f : Fetched) :
    decodeWith o f = .error (.unsupportedOperation f.ir) ↔ f.ir ∉ o.assigned := by
  refine ⟨fun herror hmem => ?_, decodeWith_eq_error_of_not_assigned⟩
  obtain ⟨i, hi⟩ := exists_decodes_of_mem_assigned hmem
  cases (hi.decodeWith_eq ho).symm.trans herror

/-- Settles O4: an assigned opcode reads as an instruction, an unassigned one as none. -/
theorem decoderRejectsExactlyUnassigned : Obligations.DecoderRejectsExactlyUnassigned := fun _ ho f =>
  decodeWith_eq_error_iff ho f

/-- Of the numbers below 256, all but as many as `l` lists are no value of a byte of `l`. -/
theorem length_filter_range_not_mem {l : List Byte} (hl : l.Nodup) :
    ((List.range 256).filter fun n => BitVec.ofNat 8 n ∉ l).length = 256 - l.length := by
  have hvalues : ∀ n < 256, BitVec.ofNat 8 n ∈ l ↔ n ∈ l.map BitVec.toNat := by
    intro n hn
    rw [← List.mem_map_of_injective (BitVec.toNat_injective (n := 8)), BitVec.toNat_ofNat, Nat.mod_eq_of_lt hn]
  have hsub : (l.map BitVec.toNat).toFinset ⊆ Finset.range 256 := by
    intro n hn
    obtain ⟨c, -, rfl⟩ := List.mem_map.1 (List.mem_toFinset.1 hn)
    exact Finset.mem_range.2 c.isLt
  have hfilter : (Finset.range 256).filter (fun n => BitVec.ofNat 8 n ∉ l) =
      Finset.range 256 \ (l.map BitVec.toNat).toFinset := by
    ext n
    simp only [Finset.mem_filter, Finset.mem_sdiff, Finset.mem_range, List.mem_toFinset]
    exact and_congr_right fun hn => not_congr (hvalues n hn)
  calc ((List.range 256).filter fun n => BitVec.ofNat 8 n ∉ l).length
      = ((Finset.range 256).filter (fun n => BitVec.ofNat 8 n ∉ l)).card := rfl
    _ = 256 - l.length := by
      rw [hfilter, Finset.card_sdiff_of_subset hsub, Finset.card_range,
        List.toFinset_card_of_nodup (hl.map (BitVec.toNat_injective (n := 8))), List.length_map]

/-- Settles O5: the rejected opcodes are those not assigned, and the twelve assigned ones are distinct. -/
theorem unassignedOpcodeCount : Obligations.UnassignedOpcodeCount := by
  intro o ho a b
  simp only [decodeWith_eq_error_iff ho ⟨BitVec.ofNat 8 _, a, b⟩]
  exact length_filter_range_not_mem ho.1

/-- Fetches that agree on the opcode and on the bytes it tells of decode alike. -/
theorem decodeWith_congr {o : Opcodes} (ho : o.WellFormed) {f g : Fetched} (hir : f.ir = g.ir)
    (htake : [f.ir, f.opa, f.opb].take (instrLength f.ir) = [g.ir, g.opa, g.opb].take (instrLength f.ir)) :
    decodeWith o f = decodeWith o g := by
  cases hf : decodeWith o f with
  | ok i =>
    have hencode := (decodeWith_decodes hf).encodeWith_eq_take ho
    have hprefix : encodeWith o i <+: [g.ir, g.opa, g.opb] := by
      rw [hencode, htake]
      exact List.take_prefix _ _
    exact ((decodes_of_encodeWith_prefix hprefix).decodeWith_eq ho).symm
  | error e =>
    obtain rfl := decodeWith_error hf
    have hg := (decodeWith_eq_error_iff ho f).1 hf
    rw [hir] at hg ⊢
    exact (decodeWith_eq_error_of_not_assigned hg).symm

/-- Settles O1: the decoder evaluated on each of the sixteen words. -/
theorem specWordsDecode : Obligations.SpecWordsDecode := by
  unfold Obligations.SpecWordsDecode
  decide

end Sys2Proof

namespace Sys2Proof.Machine

/-- The stages after the fetch are the same on two fetches of one opcode that decode alike. -/
theorem State.runFetched_congr {o : Opcodes} {f g : Fetched} (s : State) (hir : f.ir = g.ir)
    (hdecode : decodeWith o f = decodeWith o g) : s.runFetched o f = s.runFetched o g := by
  rw [State.runFetched, State.runFetched, hdecode, hir]

/-- Settles O6: the bytes beyond the length are not among those the decoder tells apart. -/
theorem unusedFetchedBytesHaveNoInfluence : Obligations.UnusedFetchedBytesHaveNoInfluence := by
  intro o ho s ir a a' b b'
  refine ⟨fun hcount => s.runFetched_congr rfl (decodeWith_congr ho rfl ?_),
    fun hcount => s.runFetched_congr rfl (decodeWith_congr ho rfl ?_)⟩
  · have hlength : instrLength ir = 1 ∨ instrLength ir = 2 := by
      unfold instrLength operandCount
      omega
    rcases hlength with h | h <;> simp [h]
  · have hlength : instrLength ir = 1 := congrArg (1 + ·) hcount
    simp [hlength]

/-- Settles O8: the law of the step on an encoding, for every instruction. -/
theorem stepRunsEncodedInstruction : Obligations.StepRunsEncodedInstruction := fun _ ho i =>
  runsAs_encodeWith ho i

end Sys2Proof.Machine

/-! ### The step, by its stages (40_fetch_dispatch.md R70 to R77) -/

namespace Sys2Proof.Machine

/-- A core that is not Running stays as it is (log 4). -/
theorem stepWith_of_not_running (o : Opcodes) {s : State} (h : s.status ≠ .running) : stepWith o s = .next s :=
  if_neg h

/-- A fetch past address 253 raises and changes nothing else (40_fetch_dispatch.md R71). -/
theorem stepWith_of_pc_gt (o : Opcodes) {s : State} (hrun : s.status = .running) (hpc : s.pc.toNat > 253) :
    stepWith o s = .next (s.setFault .addressOutOfRange) := by
  rw [stepWith, if_pos hrun, State.fetch?, if_pos hpc]
  rfl

/-- A rejected fetch raises after the pre-advance (60_exceptions.md R132). -/
theorem stepWith_of_decode_error {o : Opcodes} {s : State} {e : DecodeError} (hrun : s.status = .running)
    (hpc : s.pc.toNat ≤ 253) (h : decodeWith o (s.fetchedAt s.pc) = .error e) :
    stepWith o s = .next ((s.preAdvance (s.fetchedAt s.pc).ir).setFault .unsupportedOperation) := by
  rw [stepWith_fetched o s hrun hpc, s.runFetched_of_decodeWith_error h]

/-- An accepted fetch runs the instruction after the pre-advance (40_fetch_dispatch.md R77). -/
theorem stepWith_of_decode_ok {o : Opcodes} {s : State} {i : Instr} (hrun : s.status = .running)
    (hpc : s.pc.toNat ≤ 253) (h : decodeWith o (s.fetchedAt s.pc) = .ok i) :
    stepWith o s = exec i (s.preAdvance (s.fetchedAt s.pc).ir) := by
  rw [stepWith_fetched o s hrun hpc, State.runFetched, h]

/-- The opcode fetched is the byte of memory at `pc`. -/
theorem State.fetchedAt_ir (s : State) (h : s.pc.toNat ≤ 253) : (s.fetchedAt s.pc).ir = s.mem.read s.pc.toNat := by
  rw [s.fetchedAt_eq s.pc h]

/-- The pre-advance on the fetched opcode leads to the byte after the instruction, without a wrap
(40_fetch_dispatch.md R72). -/
theorem State.preAdvance_fetched_pc_toNat (s : State) (h : s.pc.toNat ≤ 253) :
    (s.preAdvance (s.fetchedAt s.pc).ir).pc.toNat =
      s.pc.toNat + 1 + ((s.mem.read s.pc.toNat).extractLsb' 6 2).toNat := by
  rw [s.preAdvance_pc_toNat _ h, s.fetchedAt_ir h, instrLength, operandCount, Nat.add_assoc]

/-- A core with a recorded fault is not Running. -/
theorem State.setFault_status_ne_running (s : State) {f : FaultCode} (h : f ≠ .noFault) :
    (s.setFault f).status ≠ .running := fun hrun =>
  h ((s.setFault f).status_running_iff.1 hrun).2

/-- A core with RUN = 0 is not Running. -/
theorem State.setRun_false_status_ne_running (s : State) : (s.setRun false).status ≠ .running := fun hrun =>
  Bool.false_ne_true ((s.setRun false).status_running_iff.1 hrun).1

/-- Settles O9: the law of the fetch past the end. -/
theorem fetchPastEndRaises : Obligations.FetchPastEndRaises := fun o _ hrun hpc =>
  stepWith_of_pc_gt o hrun hpc

/-- Settles O7: the three bytes are what is fetched, and the pre-advance is the `pc` of the statement. -/
theorem stepRunsDecodedInstruction : Obligations.StepRunsDecodedInstruction := by
  rintro s i ir opa opb hrun hpc rfl rfl rfl hdecode
  rw [decode, ← s.fetchedAt_eq s.pc hpc] at hdecode
  have hadvance : (s.preAdvance (s.mem.read s.pc.toNat)).pc =
      s.pc + 1#9 + ((s.mem.read s.pc.toNat).extractLsb' 6 2).setWidth 9 := by
    rw [State.preAdvance_eq, State.setPc_pc, ofNat_instrLength, BitVec.add_assoc]
  rw [← hadvance, ← s.fetchedAt_ir hpc]
  refine ⟨stepWith_of_decode_ok hrun hpc hdecode, ?_⟩
  rw [s.preAdvance_fetched_pc_toNat hpc, s.fetchedAt_ir hpc]

/-! ### Every instruction answers a next state (60_exceptions.md R135, log 3) -/

/-- The check of one register operand answers a next state where what follows it does. -/
theorem withReg_next {a : Byte} {s : State} {act : Fin 8 → Result} (h : ∀ r, ∃ t, act r = .next t) :
    ∃ t, withReg a s act = .next t := by
  unfold withReg
  split
  · exact h _
  · exact ⟨_, rfl⟩

/-- The check of two register operands answers a next state where what follows it does. -/
theorem withRegs_next {a b : Byte} {s : State} {act : Fin 8 → Fin 8 → Result}
    (h : ∀ ra rb, ∃ t, act ra rb = .next t) : ∃ t, withRegs a b s act = .next t :=
  withReg_next fun ra => withReg_next fun rb => h ra rb

/-- A choice between raising and a next state answers a next state. -/
theorem ite_raise_next (p : Prop) [Decidable p] (f : FaultCode) (s t : State) :
    ∃ u, (if p then raise f s else (.next t : Result)) = .next u := by
  split
  · exact ⟨_, rfl⟩
  · exact ⟨_, rfl⟩

/-- Every instruction answers a next state, whatever its operand bytes. -/
theorem exec_next (i : Instr) (s : State) : ∃ t, exec i s = .next t := by
  cases i with
  | add | mul | cmp => exact withRegs_next fun _ _ => ⟨_, rfl⟩
  | div => exact withRegs_next fun _ _ => ite_raise_next _ _ _ _
  | ldi | prn | jmp | jeq | jne => exact withReg_next fun _ => ⟨_, rfl⟩
  | push | pop => exact withReg_next fun _ => ite_raise_next _ _ _ _
  | hlt => exact ⟨_, rfl⟩

/-- Settles O12: each stage that ends the step answers a next state. -/
theorem stepAlwaysAnswersNext : Obligations.StepAlwaysAnswersNext := by
  intro o s
  by_cases hrun : s.status = .running
  · rcases Nat.lt_or_ge 253 s.pc.toNat with hpc | hpc
    · exact ⟨_, stepWith_of_pc_gt o hrun hpc⟩
    · cases hdecode : decodeWith o (s.fetchedAt s.pc) with
      | error e => exact ⟨_, stepWith_of_decode_error hrun hpc hdecode⟩
      | ok i =>
        rw [stepWith_of_decode_ok hrun hpc hdecode]
        exact exec_next i _
  · exact ⟨_, stepWith_of_not_running o hrun⟩

/-! ### Register operands (30_encoding.md R62) -/

@[simp] theorem spIndex_eq : spIndex = 7 := rfl

theorem regByte_toNat (r : Fin 8) : (regByte r).toNat = r.val :=
  Nat.mod_eq_of_lt (by omega)

@[simp] theorem regByte_toNat_lt (r : Fin 8) : (regByte r).toNat < 8 :=
  (regByte_toNat r).trans_lt r.isLt

/-- Different registers have different operand bytes. -/
@[simp] theorem regByte_inj {r q : Fin 8} : regByte r = regByte q ↔ r = q := by
  rw [← BitVec.toNat_inj, regByte_toNat, regByte_toNat, Fin.ext_iff]

/-- Where a register operand is no register, the one thing an instruction can do is to raise. -/
theorem Does.eq_setFault_of_not_wellFormed {i : Instr} {s t : State} (h : Does i s t) (hbad : ¬ i.WellFormed) :
    t = s.setFault .registerIndexOutOfRange := by
  cases h with
  | badIndex => rfl
  | _ => exact absurd (by simp [Instr.WellFormed, Instr.regOperands]) hbad

/-- A register operand of 8 or more: the instruction raises and does nothing else (40_fetch_dispatch.md R76). -/
theorem exec_of_not_wellFormed {i : Instr} (s : State) (hbad : ¬ i.WellFormed) :
    exec i s = .next (s.setFault .registerIndexOutOfRange) := by
  obtain ⟨t, ht⟩ := exec_next i s
  rw [ht, (exec_does ht).eq_setFault_of_not_wellFormed hbad]

/-- Settles O31: the law of a bad register operand. -/
theorem badRegisterIndexRaises : Obligations.BadRegisterIndexRaises := fun _ s hbad =>
  exec_of_not_wellFormed s hbad

/-! ### DIV (41_alu.md R93) -/

/-- DIV by a zero register raises and changes nothing else. -/
theorem exec_div_of_zero (ra : Fin 8) {rb : Fin 8} {s : State} (h : s.reg rb = 0#8) :
    exec (.div (regByte ra) (regByte rb)) s = .next (s.setFault .divideByZero) :=
  (withRegs_regByte ra rb s _).trans (if_pos h)

/-- DIV by another register writes the quotient and nothing else. -/
theorem exec_div_of_ne_zero (ra : Fin 8) {rb : Fin 8} {s : State} (h : s.reg rb ≠ 0#8) :
    exec (.div (regByte ra) (regByte rb)) s = .next (s.setReg ra (aluDiv (s.reg ra) (s.reg rb))) :=
  (withRegs_regByte ra rb s _).trans (if_neg h)

@[simp] theorem aluDiv_toNat (u v : Byte) : (aluDiv u v).toNat = u.toNat / v.toNat := by
  rw [aluDiv, BitVec.toNat_ofNat, Nat.mod_eq_of_lt ((Nat.div_le_self _ _).trans_lt u.isLt)]

/-- Settles O15: the encoding runs as DIV, which writes `aluDiv` or raises; a faulted core stays as it is. -/
theorem divWritesQuotientOrRaises : Obligations.DivWritesQuotientOrRaises := fun o ho ra rb =>
  ⟨runsAs_encodeWith ho (.div (regByte ra) (regByte rb)), fun s =>
    ⟨fun h => ⟨_, aluDiv_toNat (s.reg ra) (s.reg rb), exec_div_of_ne_zero ra h⟩, fun h =>
      ⟨exec_div_of_zero ra h, stepWith_of_not_running o (s.setFault_status_ne_running nofun)⟩⟩⟩

/-! ### PRN and HLT (42_data_io.md) -/

/-- PRN of a register appends it to OUT and does nothing else (42_data_io.md R101). -/
theorem exec_prn_regByte (ra : Fin 8) (s : State) : exec (.prn (regByte ra)) s = .next (s.emit (s.reg ra)) :=
  withReg_regByte ra s _

/-- Settles O18: the encoding runs as PRN, and PRN appends the register. -/
theorem prnAppendsRegister : Obligations.PrnAppendsRegister := fun _ ho ra =>
  ⟨runsAs_encodeWith ho (.prn (regByte ra)), exec_prn_regByte ra⟩

/-- HLT clears RUN and does nothing else (42_data_io.md R102). -/
theorem exec_hlt (s : State) : exec .hlt s = .next (s.setRun false) := rfl

/-- Settles O19: the encoding runs as HLT, and a core with RUN = 0 is Halted and stays as it is. -/
theorem hltClearsRun : Obligations.HltClearsRun := fun o ho =>
  ⟨runsAs_encodeWith ho .hlt, fun s =>
    ⟨exec_hlt s, fun h => (s.setRun false).status_halted_iff.2 ⟨rfl, h⟩,
      stepWith_of_not_running o s.setRun_false_status_ne_running⟩⟩

/-! ### PUSH and POP (43_stack.md) -/

/-- The registers after a PUSH: the stack pointer decremented, the others as before. -/
@[simp] theorem State.pushReg_reg (s : State) (r q : Fin 8) :
    (s.pushReg r).reg q = if q = 7 then s.pushAddr else s.reg q := by
  simp [State.pushReg_eq, eq_comm]

/-- Memory after a PUSH: the register, as it is after the decrement, at the address pushed to (43_stack.md R111). -/
theorem State.pushReg_read (s : State) (r : Fin 8) (a : Nat) :
    (s.pushReg r).mem.read a = if a = s.pushAddr.toNat then (s.pushReg r).reg r else s.mem.read a := by
  rw [State.pushReg_reg, State.pushReg_eq, State.memWrite_read]
  rfl

/-- With a stack pointer above 0 the address pushed to is one below it. -/
theorem State.pushAddr_toNat {s : State} (h : s.reg 7 ≠ 0#8) : s.pushAddr.toNat + 1 = (s.reg 7).toNat := by
  simp only [State.pushAddr, State.sp_eq, spIndex_eq]
  bv_omega

/-- PUSH with a stack pointer of 0 raises and changes nothing else. -/
theorem exec_push_of_zero (ra : Fin 8) {s : State} (h : s.reg 7 = 0#8) :
    exec (.push (regByte ra)) s = .next (s.setFault .addressOutOfRange) :=
  (withReg_regByte ra s _).trans (if_pos h)

/-- PUSH with a stack pointer above 0 pushes. -/
theorem exec_push_of_ne_zero (ra : Fin 8) {s : State} (h : s.reg 7 ≠ 0#8) :
    exec (.push (regByte ra)) s = .next (s.pushReg ra) :=
  (withReg_regByte ra s _).trans (if_neg h)

/-- Settles O20: PUSH answers `State.pushReg`, whose parts the laws above give. -/
theorem pushStoresBelowStackPointer : Obligations.PushStoresBelowStackPointer := fun ra s h =>
  ⟨s.pushReg ra, exec_push_of_ne_zero ra h, by simpa using State.pushAddr_toNat h, fun r hr => by simp [hr],
    fun a => by simpa using s.pushReg_read ra a, rfl, rfl, rfl, rfl, rfl⟩

/-- Settles O21: the law of PUSH at 0. -/
theorem pushAtZeroRaises : Obligations.PushAtZeroRaises := fun ra _ h => exec_push_of_zero ra h

/-- The incremented pointer leaves the byte exactly when what is incremented is 255 (43_stack.md R112). -/
theorem State.poppedSp_gt_iff (s : State) (r : Fin 8) :
    s.poppedSp r > 255 ↔ (if r = 7 then s.mem.read (s.reg 7).toNat else s.reg 7) = 255#8 := by
  change (if r = 7 then s.mem.read (s.reg 7).toNat else s.reg 7).toNat + 1 > 255 ↔ _
  bv_omega

/-- The byte that holds the incremented pointer. -/
theorem State.ofNat_poppedSp (s : State) (r : Fin 8) :
    BitVec.ofNat 8 (s.poppedSp r) = (if r = 7 then s.mem.read (s.reg 7).toNat else s.reg 7) + 1#8 := by
  change BitVec.ofNat 8 ((if r = 7 then s.mem.read (s.reg 7).toNat else s.reg 7).toNat + 1) = _
  rw [BitVec.ofNat_add, BitVec.ofNat_toNat, BitVec.setWidth_eq]

/-- POP whose incremented pointer would be 256 raises and changes nothing else. -/
theorem exec_pop_of_gt {ra : Fin 8} {s : State} (h : s.poppedSp ra > 255) :
    exec (.pop (regByte ra)) s = .next (s.setFault .addressOutOfRange) :=
  (withReg_regByte ra s _).trans (if_pos h)

/-- Any other POP writes the popped byte and the incremented pointer, in this order. -/
theorem exec_pop_of_le {ra : Fin 8} {s : State} (h : s.poppedSp ra ≤ 255) :
    exec (.pop (regByte ra)) s =
      .next ((s.setReg ra (s.memRead (s.reg 7))).setReg 7 (BitVec.ofNat 8 (s.poppedSp ra))) :=
  (withReg_regByte ra s _).trans (if_neg (Nat.not_lt.2 h))

/-- Settles O22: POP below the top. For register 7 the second write, the incremented byte, is the one that stays. -/
theorem popLoadsFromStackPointer : Obligations.PopLoadsFromStackPointer := by
  refine fun s => ⟨fun ra hra hsp => ?_, fun hbyte => ?_⟩
  · have hle : s.poppedSp ra ≤ 255 := Nat.not_lt.1 fun hgt => hsp (by simpa [hra] using (s.poppedSp_gt_iff ra).1 hgt)
    rw [exec_pop_of_le hle, s.ofNat_poppedSp, if_neg hra]
    rfl
  · have hle : s.poppedSp 7 ≤ 255 := Nat.not_lt.1 fun hgt => hbyte (by simpa using (s.poppedSp_gt_iff 7).1 hgt)
    rw [exec_pop_of_le hle, s.ofNat_poppedSp, if_pos rfl]
    simp [State.setReg]

/-- Settles O23: POP at the top, which for register 7 is told by the popped byte. -/
theorem popPastTopRaises : Obligations.PopPastTopRaises := fun s =>
  ⟨fun ra hra hsp => exec_pop_of_gt ((s.poppedSp_gt_iff ra).2 (by rw [if_neg hra, hsp])),
    fun hbyte => exec_pop_of_gt ((s.poppedSp_gt_iff 7).2 (by rw [if_pos rfl, hbyte]))⟩

/-! ### The conditional jumps (44_control_flow.md R122, R123) -/

/-- JEQ through a register loads `pc` where E is set and does nothing else. -/
theorem exec_jeq_regByte (ra : Fin 8) (s : State) :
    exec (.jeq (regByte ra)) s = .next (s.setPc (if s.fl.e then s.jumpTarget ra else s.pc)) :=
  (withReg_regByte ra s _).trans (congrArg _ (s.jumpIf_eq _ ra))

/-- JNE through a register loads `pc` where E is clear and does nothing else. -/
theorem exec_jne_regByte (ra : Fin 8) (s : State) :
    exec (.jne (regByte ra)) s = .next (s.setPc (if !s.fl.e then s.jumpTarget ra else s.pc)) :=
  (withReg_regByte ra s _).trans (congrArg _ (s.jumpIf_eq _ ra))

/-- The value of `pc` after a conditional jump. -/
theorem State.jump_pc_toNat (s : State) (taken : Bool) (r : Fin 8) :
    (if taken then s.jumpTarget r else s.pc).toNat = if taken then (s.reg r).toNat else s.pc.toNat := by
  cases taken with
  | true => exact s.jumpTarget_toNat r
  | false => rfl

/-- Settles O25: the encoding runs as JEQ, and E decides which `pc` it answers. -/
theorem jeqJumpsWhenEqualSet : Obligations.JeqJumpsWhenEqualSet := fun _ ho ra =>
  ⟨runsAs_encodeWith ho (.jeq (regByte ra)), fun s => ⟨_, s.jump_pc_toNat s.fl.e ra, exec_jeq_regByte ra s⟩⟩

/-- Settles O26: the encoding runs as JNE, and E decides which `pc` it answers. -/
theorem jneJumpsWhenEqualClear : Obligations.JneJumpsWhenEqualClear := fun _ ho ra =>
  ⟨runsAs_encodeWith ho (.jne (regByte ra)), fun s =>
    ⟨_, by simpa using s.jump_pc_toNat (!s.fl.e) ra, exec_jne_regByte ra s⟩⟩

/-- E after a comparison tells whether the bytes are equal. -/
theorem compareFlags_e_iff (u v : Byte) : (compareFlags u v).e = true ↔ u = v := by
  obtain ⟨-, -, he, -⟩ := compareFlags_spec u v
  rw [he, BitVec.toNat_inj]

/-- Settles O53: CMP leaves registers and `pc` as they are and tells equality in E, by which the branch decides. -/
theorem branchAfterCompare : Obligations.BranchAfterCompare := by
  intro ra rb rt s
  have hcmp := exec_cmp_regByte ra rb s
  have he := compareFlags_e_iff (s.reg ra) (s.reg rb)
  refine ⟨⟨_, (execAll_cons hcmp).trans (execAll_cons (exec_jeq_regByte rt _)), ?_⟩,
    ⟨_, (execAll_cons hcmp).trans (execAll_cons (exec_jne_regByte rt _)), ?_⟩⟩
  · rw [State.setPc_pc, State.jump_pc_toNat]
    simp [he]
  · rw [State.setPc_pc, State.jump_pc_toNat]
    simp only [State.setFl_fl, State.setFl_reg, State.setFl_pc, Bool.not_eq_true', ← Bool.not_eq_true, he, ite_not]

end Sys2Proof.Machine

/-! ### What an instruction leaves unchanged (10_state.md R13, R18; 43_stack.md R111, R112) -/

namespace Sys2Proof.Machine

/-- A register other than the one written reads as before. -/
theorem State.setReg_reg_of_ne (s : State) {r q : Fin 8} (v : Byte) (h : q ≠ r) : (s.setReg r v).reg q = s.reg q := by
  rw [State.setReg_reg, if_neg h.symm]

/-- Settles O27, by the ways the four instructions act: each writes its first operand's register or raises. -/
theorem registerWriterFrame : Obligations.RegisterWriterFrame := by
  intro i a b hi s t h
  cases exec_does h with
  | badIndex hbad =>
    exact ⟨fun _ _ => rfl, rfl, rfl, rfl, rfl, fun _ => rfl, .inr (.inl ⟨rfl, hbad⟩)⟩
  | divZero ra rb _ =>
    exact ⟨fun _ _ => rfl, rfl, rfl, rfl, rfl, fun _ => rfl, .inr (.inr ⟨rfl, by simpa using hi⟩)⟩
  | add ra _ | mul ra _ | div ra _ _ | ldi ra _ =>
    obtain ⟨rfl, -⟩ : regByte ra = a ∧ _ = b := by simpa using hi
    exact ⟨fun r hr => s.setReg_reg_of_ne _ fun heq => hr (congrArg regByte heq), rfl, rfl, rfl, rfl,
      fun _ => rfl, .inl rfl⟩
  | _ => simp at hi

/-- Settles O28, by the ways the six instructions act: each writes the one part that is its own. -/
theorem noRegisterWrittenFrame : Obligations.NoRegisterWrittenFrame := by
  intro i a b hi s t h
  cases exec_does h with
  | badIndex hbad =>
    exact ⟨fun _ => rfl, fun _ => rfl, .inl rfl, .inl rfl, .inl rfl, .inl rfl, .inr ⟨rfl, hbad⟩⟩
  | cmp =>
    exact ⟨fun _ => rfl, fun _ => rfl, .inr (by simpa using hi), .inl rfl, .inl rfl, .inl rfl, .inl rfl⟩
  | prn =>
    exact ⟨fun _ => rfl, fun _ => rfl, .inl rfl, .inr (by simpa using hi), .inl rfl, .inl rfl, .inl rfl⟩
  | hlt =>
    exact ⟨fun _ => rfl, fun _ => rfl, .inl rfl, .inl rfl, .inr rfl, .inl rfl, .inl rfl⟩
  | jmp | jeq | jne =>
    exact ⟨fun _ => rfl, fun _ => rfl, .inl rfl, .inl rfl, .inl rfl, .inr (by simpa using hi), .inl rfl⟩
  | _ => simp at hi

/-- Settles O29, by the ways PUSH acts: of registers and memory it writes the pointer and the byte pushed to. -/
theorem pushFrame : Obligations.PushFrame := by
  intro a s t h
  cases exec_does h with
  | badIndex hbad =>
    exact ⟨fun _ _ => rfl, rfl, rfl, rfl, rfl, fun _ _ => rfl, .inr ⟨.inl ⟨rfl, hbad⟩, rfl, fun _ => rfl⟩⟩
  | pushZero ra hzero =>
    exact ⟨fun _ _ => rfl, rfl, rfl, rfl, rfl, fun _ _ => rfl, .inr ⟨.inr ⟨rfl, hzero⟩, rfl, fun _ => rfl⟩⟩
  | push ra _ =>
    exact ⟨fun r hr => by simp [hr], rfl, rfl, rfl, rfl, fun addr haddr => by rw [s.pushReg_read, if_neg haddr],
      .inl rfl⟩

/-- Settles O30, by the ways POP acts: it writes its register and the pointer, and memory never. -/
theorem popFrame : Obligations.PopFrame := by
  intro a s t h
  cases exec_does h with
  | badIndex hbad =>
    exact ⟨fun _ _ _ => rfl, rfl, rfl, rfl, rfl, fun _ => rfl, .inr ⟨.inl ⟨rfl, hbad⟩, rfl⟩⟩
  | popTop ra _ =>
    exact ⟨fun _ _ _ => rfl, rfl, rfl, rfl, rfl, fun _ => rfl, .inr ⟨.inr rfl, rfl⟩⟩
  | pop ra _ =>
    refine ⟨fun r hr hra => ?_, rfl, rfl, rfl, rfl, fun _ => rfl, .inl rfl⟩
    rw [State.setReg_reg_of_ne (r := spIndex) _ _ hr, State.setReg_reg_of_ne _ _ fun heq => hra (congrArg regByte heq)]

/-! ### What each part of the state is written by -/

/-- Only CMP writes the flags (10_state.md R18). -/
theorem Does.fl_eq_or_cmp {i : Instr} {s t : State} (h : Does i s t) :
    t.fl = s.fl ∨ ((∃ a b, i = .cmp a b) ∧ t.fl.exactlyOne) := by
  cases h with
  | cmp ra rb =>
    obtain ⟨-, -, -, hone⟩ := compareFlags_spec (s.reg ra) (s.reg rb)
    exact .inr ⟨⟨_, _, rfl⟩, hone⟩
  | _ => exact .inl rfl

/-- Only PRN appends to OUT (10_state.md R23). -/
theorem Does.out_eq_or_prn {i : Instr} {s t : State} (h : Does i s t) :
    t.out = s.out ∨ ∃ r, i = .prn (regByte r) ∧ t.out = s.out ++ [s.reg r] := by
  cases h with
  | prn ra => exact .inr ⟨ra, rfl, rfl⟩
  | _ => exact .inl rfl

/-- Only PUSH writes memory (20_memory.md R46). -/
theorem Does.mem_eq_or_push {i : Instr} {s t : State} (h : Does i s t) :
    t.mem = s.mem ∨ ∃ r, i = .push (regByte r) ∧ s.reg 7 ≠ 0#8 ∧ t = s.pushReg r := by
  cases h with
  | push ra hsp => exact .inr ⟨ra, rfl, hsp, rfl⟩
  | _ => exact .inl rfl

/-- Only a jump that is taken writes `pc` (40_fetch_dispatch.md R80). -/
theorem Does.pc_eq_or_jump {i : Instr} {s t : State} (h : Does i s t) :
    t.pc = s.pc ∨ ∃ r, t.pc = s.jumpTarget r ∧
      (i = .jmp (regByte r) ∨ (i = .jeq (regByte r) ∧ s.fl.e = true) ∨ (i = .jne (regByte r) ∧ s.fl.e = false)) := by
  cases h with
  | jmp ra => exact .inr ⟨ra, rfl, .inl rfl⟩
  | jeq ra =>
    cases he : s.fl.e with
    | true => exact .inr ⟨ra, by simp, .inr (.inl ⟨rfl, rfl⟩)⟩
    | false => exact .inl (by simp)
  | jne ra =>
    cases he : s.fl.e with
    | true => exact .inl (by simp)
    | false => exact .inr ⟨ra, by simp, .inr (.inr ⟨rfl, rfl⟩)⟩
  | _ => exact .inl rfl

/-! ### The faults of an instruction (60_exceptions.md R130 to R139) -/

/-- An instruction that changes FAULT changes nothing else (60_exceptions.md R136). -/
theorem Does.eq_setFault_of_fault_ne {i : Instr} {s t : State} (h : Does i s t) (hne : t.fault ≠ s.fault) :
    t = s.setFault t.fault := by
  cases h with
  | badIndex | divZero | pushZero | popTop => rfl
  | _ => exact absurd rfl hne

/-- DIV's own fault tells whether the divisor is 0. -/
theorem ownFault_div_regByte (a : Byte) (rb : Fin 8) (s : State) :
    ownFault (.div a (regByte rb)) s = if s.reg rb = 0#8 then .divideByZero else .noFault := by
  simp [ownFault]

/-- POP's own fault tells whether the incremented pointer leaves the byte. -/
theorem ownFault_pop_regByte (r : Fin 8) (s : State) :
    ownFault (.pop (regByte r)) s = if s.poppedSp r > 255 then .addressOutOfRange else .noFault := by
  have hseven : regByte r = 7#8 ↔ r = 7 := regByte_inj (q := 7)
  simp only [ownFault, hseven, s.poppedSp_gt_iff r]
  by_cases h : r = 7
  · simp [h]
  · simp [h]

/-- What FAULT holds after an instruction that starts without a fault: the index check comes before the instruction's own
fault (60_exceptions.md R139). -/
theorem Does.fault_eq {i : Instr} {s t : State} (h : Does i s t) (hs : s.fault = .noFault) :
    t.fault = if i.WellFormed then ownFault i s else .registerIndexOutOfRange := by
  by_cases hwf : i.WellFormed
  · rw [if_pos hwf]
    cases h with
    | badIndex hbad => exact absurd hwf hbad
    | divZero ra rb hzero => rw [ownFault_div_regByte, if_pos hzero]; rfl
    | div ra rb hne => rw [ownFault_div_regByte, if_neg hne]; exact hs
    | pushZero ra hzero => exact (if_pos hzero).symm
    | push ra hne => exact hs.trans (if_neg hne).symm
    | popTop ra hgt => rw [ownFault_pop_regByte, if_pos hgt]; rfl
    | pop ra hle => rw [ownFault_pop_regByte, if_neg (Nat.not_lt.2 hle)]; exact hs
    | _ => exact hs
  · rw [if_neg hwf, h.eq_setFault_of_not_wellFormed hwf, State.setFault_fault]

/-- DivideByZero is recorded exactly by a DIV of registers with a zero divisor (60_exceptions.md R131). -/
theorem fault_eq_divideByZero_iff {i : Instr} {s t : State} (h : exec i s = .next t) (hs : s.fault ≠ .divideByZero) :
    t.fault = .divideByZero ↔ ∃ ra rb : Fin 8, i = .div (regByte ra) (regByte rb) ∧ s.reg rb = 0#8 := by
  constructor
  · intro ht
    cases exec_does h with
    | divZero ra rb hzero => exact ⟨ra, rb, rfl, hzero⟩
    | badIndex | pushZero | popTop => cases ht
    | _ => exact absurd ht hs
  · rintro ⟨ra, rb, rfl, hzero⟩
    rw [next_inj (h.symm.trans (exec_div_of_zero ra hzero)), State.setFault_fault]

/-- AddressOutOfRange is recorded exactly by a PUSH of a register at 0 and by a POP of a register past 255
(60_exceptions.md R133). -/
theorem fault_eq_addressOutOfRange_iff {i : Instr} {s t : State} (h : exec i s = .next t)
    (hs : s.fault ≠ .addressOutOfRange) :
    t.fault = .addressOutOfRange ↔ ∃ r : Fin 8, (i = .push (regByte r) ∧ s.reg 7 = 0#8) ∨
      (i = .pop (regByte r) ∧ (if r = 7 then s.mem.read (s.reg 7).toNat else s.reg 7) = 255#8) := by
  constructor
  · intro ht
    cases exec_does h with
    | pushZero ra hzero => exact ⟨ra, .inl ⟨rfl, hzero⟩⟩
    | popTop ra hgt => exact ⟨ra, .inr ⟨rfl, (s.poppedSp_gt_iff ra).1 hgt⟩⟩
    | badIndex | divZero => cases ht
    | _ => exact absurd ht hs
  · rintro ⟨r, ⟨rfl, hzero⟩ | ⟨rfl, htop⟩⟩
    · rw [next_inj (h.symm.trans (exec_push_of_zero r hzero)), State.setFault_fault]
    · rw [next_inj (h.symm.trans (exec_pop_of_gt ((s.poppedSp_gt_iff r).2 htop))), State.setFault_fault]

/-- RegisterIndexOutOfRange is recorded exactly by an instruction with a bad index (60_exceptions.md R134). -/
theorem fault_eq_registerIndexOutOfRange_iff {i : Instr} {s t : State} (h : exec i s = .next t)
    (hs : s.fault ≠ .registerIndexOutOfRange) : t.fault = .registerIndexOutOfRange ↔ ¬ i.WellFormed := by
  constructor
  · intro ht
    cases exec_does h with
    | badIndex hbad => exact hbad
    | divZero | pushZero | popTop => cases ht
    | _ => exact absurd ht hs
  · intro hbad
    rw [next_inj (h.symm.trans (exec_of_not_wellFormed s hbad)), State.setFault_fault]

/-- No instruction records UnsupportedOperation (60_exceptions.md R132). -/
theorem fault_ne_unsupportedOperation {i : Instr} {s t : State} (h : exec i s = .next t)
    (hs : s.fault ≠ .unsupportedOperation) : t.fault ≠ .unsupportedOperation := by
  intro ht
  cases exec_does h with
  | badIndex | divZero | pushZero | popTop => cases ht
  | _ => exact absurd ht hs

/-- Settles O32: the law of DIV by zero, and that no other instruction records its fault. -/
theorem onlyDivRaisesDivideByZero : Obligations.OnlyDivRaisesDivideByZero := by
  refine ⟨fun ra rb s hzero => ⟨exec_div_of_zero ra hzero,
    stepWith_of_not_running _ (s.setFault_status_ne_running nofun)⟩, fun i s t h hs ht => ?_⟩
  obtain ⟨ra, rb, hi, hzero⟩ := (fault_eq_divideByZero_iff h hs).1 ht
  refine ⟨ra, rb, hi, hzero, ?_⟩
  rw [(exec_does h).eq_setFault_of_fault_ne (ht ▸ hs.symm), State.setFault_x]

/-! ### The faults of a step (60_exceptions.md R136, R139) -/

/-- A Running core has no fault recorded. -/
theorem State.fault_of_running {s : State} (h : s.status = .running) : s.fault = .noFault :=
  (s.status_running_iff.1 h).2

/-- A Running core has RUN = 1. -/
theorem State.run_of_running {s : State} (h : s.status = .running) : s.run = true :=
  (s.status_running_iff.1 h).1

/-- The status names the recorded fault. -/
theorem State.status_faulted_iff (s : State) {f : FaultCode} (hf : f ≠ .noFault) :
    s.status = .faulted f ↔ s.fault = f := by
  unfold State.status
  split <;> rename_i h
  · cases s.run <;> simp [h, hf.symm]
  · simp

/-- A step that records a fault changes FAULT alone, from the state of the stage that raised it. -/
theorem stepWith_eq_setFault {o : Opcodes} {s t : State} (hrun : s.status = .running) (h : stepWith o s = .next t)
    (hfault : t.fault ≠ .noFault) :
    (s.pc.toNat > 253 ∧ t = s.setFault t.fault) ∨
    (s.pc.toNat ≤ 253 ∧ t = (s.preAdvance (s.fetchedAt s.pc).ir).setFault t.fault) := by
  rcases stepWith_cases h with ⟨hstop, -⟩ | ⟨-, hpc, rfl⟩ | ⟨-, hpc, ⟨e, -, rfl⟩ | ⟨i, -, hexec⟩⟩
  · exact absurd hrun hstop
  · exact .inl ⟨hpc, rfl⟩
  · exact .inr ⟨hpc, rfl⟩
  · exact .inr ⟨hpc, (exec_does hexec).eq_setFault_of_fault_ne
      (by rwa [State.preAdvance_fault, State.fault_of_running hrun])⟩

/-- Settles O33: what raised changed FAULT alone, at most after the pre-advance. -/
theorem faultsArePrecise : Obligations.FaultsArePrecise := by
  intro o s t hrun h hfault
  rcases stepWith_eq_setFault hrun h hfault with ⟨hpc, ht⟩ | ⟨hpc, ht⟩
  · rw [ht, if_pos hpc]
    exact ⟨⟨fun _ => rfl, rfl, rfl, rfl, rfl⟩, rfl⟩
  · rw [ht, if_neg (Nat.not_lt.2 hpc)]
    exact ⟨⟨fun _ => rfl, rfl, rfl, rfl, rfl⟩, s.preAdvance_fetched_pc_toNat hpc⟩

/-- An instruction's own fault does not depend on `pc`. -/
theorem ownFault_preAdvance (i : Instr) (s : State) (ir : Byte) : ownFault i (s.preAdvance ir) = ownFault i s := by
  cases i <;> rfl

/-- Settles O34: the stages of the step in order, the last of them by `Does.fault_eq`. -/
theorem faultIsFirstInPriorityOrder : Obligations.FaultIsFirstInPriorityOrder := by
  intro o s t hrun h
  rcases stepWith_cases h with ⟨hstop, -⟩ | ⟨-, hpc, rfl⟩ | ⟨-, hpc, ⟨e, hdecode, rfl⟩ | ⟨i, hdecode, hexec⟩⟩
  · exact absurd hrun hstop
  · rw [if_pos hpc, State.setFault_fault]
  · rw [if_neg (Nat.not_lt.2 hpc), ← s.fetchedAt_eq s.pc hpc, hdecode, State.setFault_fault]
  · rw [if_neg (Nat.not_lt.2 hpc), ← s.fetchedAt_eq s.pc hpc, hdecode,
      (exec_does hexec).fault_eq (State.fault_of_running hrun), ownFault_preAdvance]

/-- Settles O38: before the instruction the two faults of the fetch and the decoder, then those of the instruction. -/
theorem stepFaultsExactlyWhenRaised : Obligations.StepFaultsExactlyWhenRaised := by
  intro o ho s t hrun h
  simp only [State.status_faulted_iff, ne_eq, reduceCtorEq, not_false_eq_true]
  rcases stepWith_cases h with ⟨hstop, -⟩ | ⟨-, hpc, rfl⟩ | ⟨-, hpc, ⟨e, hdecode, rfl⟩ | ⟨i, hdecode, hexec⟩⟩
  · exact absurd hrun hstop
  · simp [hpc]
  · have hassigned := (decodeWith_eq_error_iff ho (s.fetchedAt s.pc)).1 (decodeWith_error hdecode ▸ hdecode)
    rw [s.fetchedAt_ir hpc] at hassigned
    simp [hdecode, hassigned, hpc]
  · have hassigned := (decodeWith_decodes hdecode).ir_mem_assigned
    rw [s.fetchedAt_ir hpc] at hassigned
    have hs := State.fault_of_running hrun
    rw [fault_eq_addressOutOfRange_iff hexec (by simp [hs]), fault_eq_registerIndexOutOfRange_iff hexec (by simp [hs]),
      fault_eq_divideByZero_iff hexec (by simp [hs])]
    have hunsupported := fault_ne_unsupportedOperation hexec (by simp [hs])
    simp [hdecode, hassigned, hpc, hunsupported]

/-! ### Rules about the whole machine -/

/-- A step changes no more than `pc` and FAULT, or it does what the decoded instruction does from the pre-advanced
state. -/
theorem stepWith_sameButPcAndFault_or_does {o : Opcodes} {s t : State} (h : stepWith o s = .next t) :
    SameButPcAndFault s t ∨ ∃ i, decodeWith o (s.fetchedAt s.pc) = .ok i ∧ s.status = .running ∧ s.pc.toNat ≤ 253 ∧
      Does i (s.preAdvance (s.fetchedAt s.pc).ir) t := by
  rcases stepWith_cases h with ⟨-, rfl⟩ | ⟨-, -, rfl⟩ | ⟨hrun, hpc, ⟨e, -, rfl⟩ | ⟨i, hdecode, hexec⟩⟩
  · exact .inl ⟨fun _ => rfl, rfl, rfl, rfl, rfl⟩
  · exact .inl ⟨fun _ => rfl, rfl, rfl, rfl, rfl⟩
  · exact .inl ⟨fun _ => rfl, rfl, rfl, rfl, rfl⟩
  · exact .inr ⟨i, hdecode, hrun, hpc, exec_does hexec⟩

/-- Settles O35: of the instructions only CMP writes the flags. -/
theorem onlyCmpWritesFlags : Obligations.OnlyCmpWritesFlags := by
  intro o s t h
  rcases stepWith_sameButPcAndFault_or_does h with ⟨-, -, hfl, -, -⟩ | ⟨i, hdecode, -, -, hdoes⟩
  · exact .inl hfl
  · rcases hdoes.fl_eq_or_cmp with hfl | ⟨⟨a, b, rfl⟩, hone⟩
    · exact .inl hfl
    · exact .inr ⟨⟨a, b, hdecode⟩, hone⟩

/-- Settles O37: HLT is the one instruction that clears RUN, and the one way to Halted. -/
theorem stepHaltsExactlyOnHlt : Obligations.StepHaltsExactlyOnHlt := by
  intro o s t hrun h
  constructor
  · intro hhalted
    obtain ⟨hrunFalse, hfault⟩ := t.status_halted_iff.1 hhalted
    rcases stepWith_sameButPcAndFault_or_does h with ⟨-, -, -, hsame, -⟩ | ⟨i, hdecode, -, hpc, hdoes⟩
    · rw [hsame, State.run_of_running hrun] at hrunFalse
      cases hrunFalse
    · rcases hdoes.run_eq_or_hlt with hsame | ⟨rfl, -⟩
      · rw [hsame, State.preAdvance_run, State.run_of_running hrun] at hrunFalse
        cases hrunFalse
      · exact ⟨hpc, hdecode⟩
  · rintro ⟨hpc, hdecode⟩
    rw [stepWith_of_decode_ok hrun hpc hdecode, exec_hlt] at h
    obtain rfl := next_inj h
    exact (State.status_halted_iff _).2 ⟨rfl, (State.fault_of_running hrun : s.fault = .noFault)⟩

/-- Settles O39: after the pre-advance only a taken jump writes `pc`. -/
theorem sequentialFlowUnlessJump : Obligations.SequentialFlowUnlessJump := by
  intro o s t hrun hpc h
  have hadvance := s.preAdvance_fetched_pc_toNat hpc
  rcases stepWith_cases h with ⟨hstop, -⟩ | ⟨-, hgt, -⟩ | ⟨-, -, ⟨e, -, rfl⟩ | ⟨i, hdecode, hexec⟩⟩
  · exact absurd hrun hstop
  · exact absurd hpc (Nat.not_le.2 hgt)
  · exact .inl hadvance
  · rcases (exec_does hexec).pc_eq_or_jump with hkeep | ⟨r, htarget, hjump⟩
    · exact .inl (hkeep ▸ hadvance)
    · refine .inr ⟨r, htarget ▸ State.jumpTarget_toNat _ r, ?_⟩
      rcases hjump with rfl | ⟨rfl, he⟩ | ⟨rfl, he⟩
      · exact .inl hdecode
      · exact .inr (.inl ⟨hdecode, he⟩)
      · exact .inr (.inr ⟨hdecode, he⟩)

/-- Settles O40: of the instructions only PUSH writes memory, as `State.pushReg_read` says. -/
theorem onlyPushWritesMemory : Obligations.OnlyPushWritesMemory := by
  intro o s t h
  rcases stepWith_sameButPcAndFault_or_does h with ⟨hmem, -⟩ | ⟨i, hdecode, -, -, hdoes⟩
  · exact .inl hmem
  · rcases hdoes.mem_eq_or_push with hmem | ⟨r, rfl, -, rfl⟩
    · exact .inl fun a => by rw [hmem, State.preAdvance_mem]
    · refine .inr ⟨r, hdecode, by rw [State.pushReg_reg, if_pos rfl]; rfl, fun a => ?_⟩
      rw [State.pushReg_read, State.pushReg_reg _ r 7, if_pos rfl, State.preAdvance_mem]

/-- Settles O42: of the instructions only PRN appends, and the port shows what was appended. -/
theorem onlyPrnEmits : Obligations.OnlyPrnEmits := by
  intro o s t h
  have hquiet : t.out = s.out → transferred s t = [] := fun hout => by rw [transferred, hout, List.drop_length]
  rcases stepWith_sameButPcAndFault_or_does h with ⟨-, -, -, -, hout⟩ | ⟨i, hdecode, -, -, hdoes⟩
  · exact .inl ⟨hout, hquiet hout⟩
  · rcases hdoes.out_eq_or_prn with hout | ⟨r, rfl, hout⟩
    · exact .inl ⟨hout, hquiet hout⟩
    · refine .inr ⟨r, hdecode, hout, ?_⟩
      rw [transferred, hout, State.preAdvance_out, List.drop_left, State.preAdvance_reg]

end Sys2Proof.Machine

/-! ### The invariant (10_state.md R16, R19, R22; log 6) -/

namespace Sys2Proof.Machine

/-- HLT records no fault. -/
theorem Does.fault_eq_of_hlt {s t : State} (h : Does .hlt s t) : t.fault = s.fault := by
  cases h with
  | hlt => rfl
  | badIndex hbad => simp [Instr.regOperands] at hbad

/-- Every instruction of a Running core keeps the invariant: PUSH writes inside memory, a jump target is a byte, CMP sets
one flag, and HLT records no fault. -/
theorem Does.inv {i : Instr} {s t : State} (h : Does i s t) (hrun : s.status = .running) (hs : s.Inv) : t.Inv := by
  obtain ⟨hmem, hpc, hfl, -⟩ := hs
  refine ⟨?_, ?_, ?_, ?_⟩
  · rcases h.mem_eq_or_push with heq | ⟨r, -, -, rfl⟩
    · rwa [heq]
    · exact State.memWrite_wf _ _ _ hmem
  · rcases h.pc_eq_or_jump with heq | ⟨r, htarget, -⟩
    · rwa [heq]
    · rw [htarget, State.jumpTarget_toNat]
      have := (s.reg r).isLt
      omega
  · rcases h.fl_eq_or_cmp with heq | ⟨-, hone⟩
    · rwa [heq]
    · exact hone.le
  · rcases h.run_eq_or_hlt with heq | ⟨rfl, -⟩
    · exact .inl (heq.trans (State.run_of_running hrun))
    · exact .inr (h.fault_eq_of_hlt.trans (State.fault_of_running hrun))

/-- A fault recorded by a Running core keeps the invariant. -/
theorem State.setFault_inv {s : State} (f : FaultCode) (hrun : s.status = .running) (hs : s.Inv) :
    (s.setFault f).Inv := by
  obtain ⟨hmem, hpc, hfl, -⟩ := hs
  exact ⟨hmem, hpc, hfl, .inl (State.run_of_running hrun : s.run = true)⟩

/-- The pre-advance from where three bytes can be fetched keeps the invariant: `pc` grows from at most 253 by at most 4. -/
theorem State.preAdvance_inv {s : State} (ir : Byte) (hpc : s.pc.toNat ≤ 253) (hs : s.Inv) : (s.preAdvance ir).Inv := by
  obtain ⟨hmem, -, hfl, hrf⟩ := hs
  refine ⟨hmem, ?_, hfl, hrf⟩
  rw [s.preAdvance_pc_toNat ir hpc]
  have := instrLength_bounds ir
  omega

/-- Every step keeps the invariant, for every opcode assignment. -/
theorem stepWith_inv {o : Opcodes} {s t : State} (hs : s.Inv) (h : stepWith o s = .next t) : t.Inv := by
  rcases stepWith_cases h with ⟨-, rfl⟩ | ⟨hrun, -, rfl⟩ | ⟨hrun, hpc, ⟨e, -, rfl⟩ | ⟨i, -, hexec⟩⟩
  · exact hs
  · exact State.setFault_inv _ hrun hs
  · exact State.setFault_inv (s := s.preAdvance _) _ hrun (State.preAdvance_inv _ hpc hs)
  · exact (exec_does hexec).inv hrun (State.preAdvance_inv _ hpc hs)

/-- Settles O43: the law of the step at the default opcodes. -/
theorem stepKeepsInvariant : Obligations.StepKeepsInvariant := fun _ _ hs h => stepWith_inv hs h

/-- Settles O44: nothing is listed in memory, `pc` is 0, no flag is set, RUN is 1. -/
theorem resetMeetsInvariant : Obligations.ResetMeetsInvariant :=
  ⟨State.reset_mem_wf, by decide, by decide, .inl rfl⟩

/-! ### Runs -/

/-- A run of `n + 1` steps has a first step, whose state it goes on from. -/
theorem exists_step_of_runSteps_succ {n : Nat} {s u : State} (h : runSteps (n + 1) s = .next u) :
    ∃ t, step s = .next t ∧ runSteps n t = .next u := by
  obtain ⟨t, ht⟩ := stepAlwaysAnswersNext defaultOpcodes s
  exact ⟨t, ht, (runSteps_succ ht).symm.trans h⟩

/-- A run of one step more ends with the step from where the run came to. -/
theorem runSteps_succ_last {n : Nat} {s t : State} (h : runSteps n s = .next t) : runSteps (n + 1) s = step t := by
  induction n generalizing s with
  | zero =>
    obtain rfl := next_inj h
    obtain ⟨u, hu⟩ := stepAlwaysAnswersNext defaultOpcodes s
    exact (runSteps_succ hu).trans hu.symm
  | succ n ih =>
    obtain ⟨u, hu, hrest⟩ := exists_step_of_runSteps_succ h
    exact (runSteps_succ hu).trans (ih hrest)

/-- What every step keeps holds in every state a run comes to. -/
theorem runSteps_keeps {P : State → Prop} (hstep : ∀ s t, P s → step s = .next t → P t) {n : Nat} {s t : State}
    (hs : P s) (h : runSteps n s = .next t) : P t := by
  induction n generalizing s with
  | zero => exact next_inj h ▸ hs
  | succ n ih =>
    obtain ⟨u, hu, hrest⟩ := exists_step_of_runSteps_succ h
    exact ih (hstep s u hs hu) hrest

/-- Settles O11: the step of a stopped core answers the same state, and so does every further one. -/
theorem stoppedCoreNeverChanges : Obligations.StoppedCoreNeverChanges := by
  intro s n hstop
  induction n with
  | zero => rfl
  | succ n ih => exact (runSteps_succ (stepWith_of_not_running _ hstop)).trans ih

/-- A step appends at most one byte to OUT. -/
theorem stepWith_out {o : Opcodes} {s t : State} (h : stepWith o s = .next t) :
    ∃ new : List Byte, t.out = s.out ++ new ∧ new.length ≤ 1 := by
  rcases onlyPrnEmits o s t h with ⟨hout, -⟩ | ⟨r, -, hout, -⟩
  · exact ⟨[], by simp [hout], by simp⟩
  · exact ⟨[s.reg r], hout, by simp⟩

/-- Settles O41: what the steps append, one after another. -/
theorem outputOnlyGrows : Obligations.OutputOnlyGrows := by
  intro n
  induction n with
  | zero =>
    intro s t h
    exact ⟨[], by simp [next_inj h], by simp⟩
  | succ n ih =>
    intro s t h
    obtain ⟨u, hu, hrest⟩ := exists_step_of_runSteps_succ h
    obtain ⟨first, hfirst, hone⟩ := stepWith_out hu
    obtain ⟨more, hmore, hn⟩ := ih u t hrest
    exact ⟨first ++ more, by rw [hmore, hfirst, List.append_assoc], by rw [List.length_append]; omega⟩

/-- The load of an image writes memory and nothing else. -/
theorem State.loadFrom_sameButMemory (s : State) (base : Nat) (image : List Byte) :
    SameButMemory s (s.loadFrom base image) := by
  induction image generalizing s base with
  | nil => exact ⟨rfl, rfl, rfl, rfl, rfl, rfl⟩
  | cons b bs ih => exact ih (s.memWrite (BitVec.ofNat 8 base) b) (base + 1)

/-- The load of an image keeps the invariant. -/
theorem State.loadFrom_inv {s : State} (base : Nat) (image : List Byte) (hs : s.Inv) : (s.loadFrom base image).Inv := by
  obtain ⟨hmem, hpc, hfl, hrf⟩ := hs
  obtain ⟨-, hpcEq, hflEq, hrunEq, hfaultEq, -⟩ := s.loadFrom_sameButMemory base image
  exact ⟨s.loadFrom_wf base image hmem, hpcEq ▸ hpc, hflEq ▸ hfl, by rwa [hrunEq, hfaultEq]⟩

/-- The launch state is reset with the image loaded, for an image that fits (70_reset_and_hazards.md R161). -/
theorem launch_eq_some_iff {image : List Byte} {s : State} :
    launch image = some s ↔ image.length ≤ 256 ∧ s = State.reset.loadFrom 0 image := by
  by_cases h : image.length ≤ 256
  · simp [launch, State.loadImage, Config.memSize, h, eq_comm]
  · simp [launch, State.loadImage, Config.memSize, h]

/-- Settles O45: the launch state meets the invariant, and every step keeps it. -/
theorem runsKeepInvariant : Obligations.RunsKeepInvariant := by
  intro image s t n hlaunch h
  obtain ⟨-, rfl⟩ := launch_eq_some_iff.1 hlaunch
  exact runSteps_keeps stepKeepsInvariant (State.loadFrom_inv 0 image resetMeetsInvariant) h

/-! ### The accesses of a step (20_memory.md R41, R46) -/

/-- The three fetch reads are accesses of the step. -/
theorem fetch_reads_subset_stepAccesses (o : Opcodes) {s : State} (hrun : s.status = .running)
    (hpc : s.pc.toNat ≤ 253) :
    [.read (pcAddr s.pc), .read (pcAddr (s.pc + 1#9)), .read (pcAddr (s.pc + 2#9))] ⊆ stepAccesses o s := by
  rw [stepAccesses, if_pos hrun, State.fetch?, if_neg (Nat.not_lt.2 hpc)]
  exact List.subset_append_left _ _

/-- The data accesses of the decoded instruction are accesses of the step. -/
theorem dataAccesses_subset_stepAccesses {o : Opcodes} {s : State} {i : Instr} (hrun : s.status = .running)
    (hpc : s.pc.toNat ≤ 253) (h : decodeWith o (s.fetchedAt s.pc) = .ok i) : dataAccesses i s ⊆ stepAccesses o s := by
  simp only [stepAccesses, if_pos hrun, State.fetch?, if_neg (Nat.not_lt.2 hpc), h]
  exact List.subset_append_right _ _

/-- The data accesses do not depend on `pc`. -/
theorem dataAccesses_preAdvance (i : Instr) (s : State) (ir : Byte) :
    dataAccesses i (s.preAdvance ir) = dataAccesses i s := by
  cases i <;> rfl

/-- A PUSH above 0 lists its write. -/
theorem dataAccesses_push {s : State} (r : Fin 8) (h : s.reg 7 ≠ 0#8) :
    dataAccesses (.push (regByte r)) s = [.write s.pushAddr] :=
  if_pos ⟨regByte_toNat_lt r, h⟩

/-- A POP lists its read, whether it raises or not (log 16). -/
theorem dataAccesses_pop (s : State) (r : Fin 8) : dataAccesses (.pop (regByte r)) s = [.read (s.reg 7)] :=
  if_pos (regByte_toNat_lt r)

/-- Settles O48: the one byte a step can write, PUSH's, is in the list. -/
theorem stepWritesOnlyListedBytes : Obligations.StepWritesOnlyListedBytes := by
  intro o s t h a ha
  rcases stepWith_sameButPcAndFault_or_does h with ⟨hmem, -⟩ | ⟨i, hdecode, hrun, hpc, hdoes⟩
  · exact hmem a.toNat
  · rcases hdoes.mem_eq_or_push with hmem | ⟨r, rfl, hsp, rfl⟩
    · rw [hmem, State.preAdvance_mem]
    · have hlisted : .write s.pushAddr ∈ stepAccesses o s :=
        dataAccesses_subset_stepAccesses hrun hpc hdecode (by
          rw [dataAccesses_push (s := s) r hsp]
          exact List.mem_singleton_self _)
      have hne : a.toNat ≠ (s.preAdvance (s.fetchedAt s.pc).ir).pushAddr.toNat := fun heq =>
        ha (BitVec.eq_of_toNat_eq heq ▸ hlisted)
      rw [State.pushReg_read, if_neg hne, State.preAdvance_mem]

/-- A byte that no step of a run writes reads as before the run. -/
theorem runSteps_read_of_not_written {n : Nat} {t u : State} (a : Addr) (h : runSteps n t = .next u)
    (hquiet : ∀ k < n, ∀ v, runSteps k t = .next v → .write a ∉ stepAccesses defaultOpcodes v) :
    u.mem.read a.toNat = t.mem.read a.toNat := by
  induction n generalizing t with
  | zero => rw [next_inj h]
  | succ n ih =>
    obtain ⟨v, hv, hrest⟩ := exists_step_of_runSteps_succ h
    have hfirst := stepWritesOnlyListedBytes _ t v hv a (hquiet 0 n.succ_pos t rfl)
    rw [← hfirst]
    exact ih hrest fun k hk w hw => hquiet (k + 1) (Nat.succ_lt_succ hk) w ((runSteps_succ hv).trans hw)

/-- Settles O50: the pushed byte lies at the new stack pointer, stays there, and the fetch reads memory. -/
theorem pushedByteIsFetched : Obligations.PushedByteIsFetched := by
  intro ra s t hsp hpush n u hrun hquiet pc hpc
  obtain rfl := next_inj ((exec_push_of_ne_zero ra hsp).symm.trans hpush)
  have hbyte : u.mem.read ((s.pushReg ra).reg 7).toNat = (s.pushReg ra).reg ra := by
    rw [runSteps_read_of_not_written _ hrun hquiet, State.pushReg_read, State.pushReg_reg s ra 7, if_pos rfl, if_pos rfl]
  rw [u.fetchedAt_eq pc hpc]
  exact ⟨fun h => by rw [← hbyte, ← h], fun h => by rw [← hbyte, ← h], fun h => by rw [← hbyte, ← h]⟩

/-! ### What nothing reads (10_state.md R18, R23; 20_memory.md R46) -/

/-- What `Does` lists is what `exec` answers; the converse of `exec_does`. -/
theorem Does.exec_eq {i : Instr} {s t : State} (h : Does i s t) : exec i s = .next t := by
  cases h with
  | badIndex hbad => exact exec_of_not_wellFormed s hbad
  | add ra rb => exact exec_add_regByte ra rb s
  | mul ra rb => exact exec_mul_regByte ra rb s
  | divZero ra rb hzero => exact exec_div_of_zero ra hzero
  | div ra rb hne => exact exec_div_of_ne_zero ra hne
  | cmp ra rb => exact exec_cmp_regByte ra rb s
  | ldi ra imm => exact exec_ldi_regByte ra imm s
  | prn ra => exact exec_prn_regByte ra s
  | hlt => exact exec_hlt s
  | pushZero ra hzero => exact exec_push_of_zero ra hzero
  | push ra hne => exact exec_push_of_ne_zero ra hne
  | popTop ra hgt => exact exec_pop_of_gt hgt
  | pop ra hle => exact exec_pop_of_le hle
  | jmp ra => exact exec_jmp_regByte ra s
  | jeq ra => exact exec_jeq_regByte ra s
  | jne ra => exact exec_jne_regByte ra s

/-- `s` with other contents of what a step can leave unread: memory, the flags L and G, the history of OUT. -/
def State.withUnread (s : State) (m : Memory) (l g : Bool) (past : List Byte) : State :=
  { s with mem := m, fl := ⟨l, g, s.fl.e⟩, out := past }

/-- From `s'` to `t'` happens what happens from `s` to `t`: the same registers, `pc`, E, RUN and FAULT come out, the same
flags and memory do where they went in, and the same bytes are appended to OUT. -/
structure SameEffect (s t s' t' : State) : Prop where
  x : t'.x = t.x
  pc : t'.pc = t.pc
  e : t'.fl.e = t.fl.e
  run : t'.run = t.run
  fault : t'.fault = t.fault
  fl : s'.fl = s.fl → t'.fl = t.fl
  mem : s'.mem = s.mem → t'.mem = t.mem
  out : ∃ new : List Byte, t.out = s.out ++ new ∧ t'.out = s'.out ++ new

/-- An effect that appends nothing to OUT. -/
theorem append_nothing {s t s' t' : State} (h : t.out = s.out) (h' : t'.out = s'.out) :
    ∃ new : List Byte, t.out = s.out ++ new ∧ t'.out = s'.out ++ new :=
  ⟨[], by rw [h, List.append_nil], by rw [h', List.append_nil]⟩

/-- POP reads the byte at the stack pointer and no other. -/
theorem read_sp_of_reads_pop {s : State} {m : Memory} {r : Fin 8}
    (hm : ∀ a : Addr, .read a ∈ dataAccesses (.pop (regByte r)) s → m.read a.toNat = s.mem.read a.toNat) :
    m.read (s.reg 7).toNat = s.mem.read (s.reg 7).toNat :=
  hm (s.reg 7) (by rw [dataAccesses_pop]; exact List.mem_singleton_self _)

/-- The incremented pointer of a POP depends on memory by that byte alone. -/
theorem State.withUnread_poppedSp {s : State} {m : Memory} (h : m.read (s.reg 7).toNat = s.mem.read (s.reg 7).toNat)
    (l g : Bool) (past : List Byte) (r : Fin 8) : (s.withUnread m l g past).poppedSp r = s.poppedSp r :=
  congrArg (fun b : Byte => (if r = 7 then b else s.reg 7).toNat + 1) h

/-- An instruction does the same whatever the flags L and G, OUT and the bytes it does not read are. -/
theorem Does.withUnread {i : Instr} {s t : State} (h : Does i s t) {m : Memory}
    (hm : ∀ a : Addr, .read a ∈ dataAccesses i s → m.read a.toNat = s.mem.read a.toNat) (l g : Bool) (past : List Byte) :
    ∃ u, Does i (s.withUnread m l g past) u ∧ SameEffect s t (s.withUnread m l g past) u := by
  cases h with
  | badIndex hbad => exact ⟨_, .badIndex hbad, rfl, rfl, rfl, rfl, rfl, id, id, append_nothing rfl rfl⟩
  | add ra rb => exact ⟨_, .add ra rb, rfl, rfl, rfl, rfl, rfl, id, id, append_nothing rfl rfl⟩
  | mul ra rb => exact ⟨_, .mul ra rb, rfl, rfl, rfl, rfl, rfl, id, id, append_nothing rfl rfl⟩
  | divZero ra rb hzero => exact ⟨_, .divZero ra rb hzero, rfl, rfl, rfl, rfl, rfl, id, id, append_nothing rfl rfl⟩
  | div ra rb hne => exact ⟨_, .div ra rb hne, rfl, rfl, rfl, rfl, rfl, id, id, append_nothing rfl rfl⟩
  | cmp ra rb => exact ⟨_, .cmp ra rb, rfl, rfl, rfl, rfl, rfl, fun _ => rfl, id, append_nothing rfl rfl⟩
  | ldi ra imm => exact ⟨_, .ldi ra imm, rfl, rfl, rfl, rfl, rfl, id, id, append_nothing rfl rfl⟩
  | prn ra => exact ⟨_, .prn ra, rfl, rfl, rfl, rfl, rfl, id, id, _, rfl, rfl⟩
  | hlt => exact ⟨_, .hlt, rfl, rfl, rfl, rfl, rfl, id, id, append_nothing rfl rfl⟩
  | pushZero ra hzero => exact ⟨_, .pushZero ra hzero, rfl, rfl, rfl, rfl, rfl, id, id, append_nothing rfl rfl⟩
  | push ra hne =>
    exact ⟨_, .push ra hne, rfl, rfl, rfl, rfl, rfl, id, fun hmem => congrArg (Memory.write · _ _) hmem,
      append_nothing rfl rfl⟩
  | popTop ra hgt =>
    have hsp := State.withUnread_poppedSp (read_sp_of_reads_pop hm) l g past ra
    exact ⟨_, .popTop ra (hsp ▸ hgt), rfl, rfl, rfl, rfl, rfl, id, id, append_nothing rfl rfl⟩
  | pop ra hle =>
    have hread := read_sp_of_reads_pop hm
    have hsp := State.withUnread_poppedSp hread l g past ra
    have hx := congrArg₂ (fun (b : Byte) n => (s.x.set ra b).set 7 (BitVec.ofNat 8 n)) hread hsp
    exact ⟨_, .pop ra (hsp ▸ hle), hx, rfl, rfl, rfl, rfl, id, id, append_nothing rfl rfl⟩
  | jmp ra => exact ⟨_, .jmp ra, rfl, rfl, rfl, rfl, rfl, id, id, append_nothing rfl rfl⟩
  | jeq ra => exact ⟨_, .jeq ra, rfl, rfl, rfl, rfl, rfl, id, id, append_nothing rfl rfl⟩
  | jne ra => exact ⟨_, .jne ra, rfl, rfl, rfl, rfl, rfl, id, id, append_nothing rfl rfl⟩

/-- A step does the same whatever the flags L and G, OUT and the bytes it does not read are. -/
theorem stepWith_withUnread {o : Opcodes} {s t : State} (h : stepWith o s = .next t) {m : Memory}
    (hm : ∀ a : Addr, .read a ∈ stepAccesses o s → m.read a.toNat = s.mem.read a.toNat) (l g : Bool) (past : List Byte) :
    ∃ u, stepWith o (s.withUnread m l g past) = .next u ∧ SameEffect s t (s.withUnread m l g past) u := by
  rcases stepWith_cases h with ⟨hstop, rfl⟩ | ⟨hrun, hpc, rfl⟩ | ⟨hrun, hpc, hdecoded⟩
  · exact ⟨_, stepWith_of_not_running (s := t.withUnread m l g past) o hstop, rfl, rfl, rfl, rfl, rfl, id, id,
      append_nothing rfl rfl⟩
  · exact ⟨_, stepWith_of_pc_gt (s := s.withUnread m l g past) o hrun hpc, rfl, rfl, rfl, rfl, rfl, id, id,
      append_nothing rfl rfl⟩
  · have hreads := fetch_reads_subset_stepAccesses o hrun hpc
    have hfetched : (s.withUnread m l g past).fetchedAt (s.withUnread m l g past).pc = s.fetchedAt s.pc := by
      change (s.withUnread m l g past).fetchedAt s.pc = _
      rw [State.fetchedAt, State.fetchedAt, Fetched.mk.injEq]
      exact ⟨hm _ (hreads (by simp)), hm _ (hreads (by simp)), hm _ (hreads (by simp))⟩
    rcases hdecoded with ⟨e, hdecode, rfl⟩ | ⟨i, hdecode, hexec⟩
    · refine ⟨_, stepWith_of_decode_error (s := s.withUnread m l g past) hrun hpc (hfetched ▸ hdecode), ?_⟩
      rw [hfetched]
      exact ⟨rfl, rfl, rfl, rfl, rfl, id, id, append_nothing rfl rfl⟩
    · have hdata : ∀ a : Addr, .read a ∈ dataAccesses i (s.preAdvance (s.fetchedAt s.pc).ir) →
          m.read a.toNat = s.mem.read a.toNat := fun a ha =>
        hm a (dataAccesses_subset_stepAccesses hrun hpc hdecode (dataAccesses_preAdvance i s _ ▸ ha))
      obtain ⟨u, hu, heffect⟩ := (exec_does hexec).withUnread hdata l g past
      refine ⟨u, ?_, { heffect with }⟩
      rw [stepWith_of_decode_ok (s := s.withUnread m l g past) hrun hpc (hfetched ▸ hdecode), hfetched]
      exact hu.exec_eq

/-- Settles O46: memory and OUT as they are, other flags L and G. -/
theorem lessAndGreaterReadByNothing : Obligations.LessAndGreaterReadByNothing := by
  intro i s l g
  obtain ⟨t, ht⟩ := exec_next i s
  obtain ⟨u, hu, heffect⟩ := (exec_does ht).withUnread (m := s.mem) (fun _ _ => rfl) l g s.out
  obtain ⟨new, hout, hout'⟩ := heffect.out
  refine ⟨t, u, ht, hu.exec_eq, ?_⟩
  rw [← heffect.x, ← heffect.pc, ← heffect.e, ← heffect.run, ← heffect.fault, ← heffect.mem rfl,
    show t.out = u.out from hout.trans hout'.symm]

/-- Settles O47: memory and the flags as they are, another OUT. -/
theorem outputHistoryReadByNothing : Obligations.OutputHistoryReadByNothing := by
  intro o s past
  obtain ⟨t, ht⟩ := stepAlwaysAnswersNext o s
  obtain ⟨u, hu, heffect⟩ := stepWith_withUnread ht (m := s.mem) (fun _ _ => rfl) s.fl.l s.fl.g past
  obtain ⟨new, hout, hout'⟩ := heffect.out
  refine ⟨t, new, by rw [ht, ← hout], hu.trans ?_⟩
  rw [← show u.out = past ++ new from hout', ← heffect.x, ← heffect.pc, ← heffect.run, ← heffect.fault,
    ← heffect.fl rfl, ← heffect.mem rfl]

/-- Settles O49: the flags and OUT as they are, another memory. -/
theorem stepDependsOnlyOnListedReads : Obligations.StepDependsOnlyOnListedReads := by
  intro o s m hm
  obtain ⟨t, ht⟩ := stepAlwaysAnswersNext o s
  obtain ⟨u, hu, heffect⟩ := stepWith_withUnread ht hm s.fl.l s.fl.g s.out
  obtain ⟨new, hout, hout'⟩ := heffect.out
  exact ⟨t, u, ht, hu, heffect.x, heffect.pc, heffect.fl rfl, heffect.run, heffect.fault, hout'.trans hout.symm⟩

end Sys2Proof.Machine

/-! ### Sequences of PUSH and POP (43_stack.md R113, R114) -/

namespace Sys2Proof.Machine

/-- What pushing the registers `rs`, none of them the stack pointer, makes of `s`: the bytes lie below the old pointer, the
first pushed on top, and nothing at the pointer or above it is touched. -/
structure Pushed (rs : List (Fin 8)) (s t : State) : Prop where
  sp : (t.reg 7).toNat + rs.length = (s.reg 7).toNat
  reg : ∀ r : Fin 8, r ≠ 7 → t.reg r = s.reg r
  fault : t.fault = s.fault
  above : ∀ a, (s.reg 7).toNat ≤ a → t.mem.read a = s.mem.read a
  bytes : ∀ (k : Nat) (r : Fin 8), rs[k]? = some r → t.mem.read ((s.reg 7).toNat - 1 - k) = s.reg r

/-- One push and then the others. -/
theorem Pushed.cons {r : Fin 8} {rs : List (Fin 8)} {s t : State} (hr : r ≠ 7) (hrs : 7 ∉ rs) (hsp : s.reg 7 ≠ 0#8)
    (h : Pushed rs (s.pushReg r) t) : Pushed (r :: rs) s t := by
  have hdec : ((s.pushReg r).reg 7).toNat + 1 = (s.reg 7).toNat := by simpa using State.pushAddr_toNat hsp
  have haddr : s.pushAddr.toNat + 1 = (s.reg 7).toNat := State.pushAddr_toNat hsp
  have hregs : ∀ q : Fin 8, q ≠ 7 → (s.pushReg r).reg q = s.reg q := fun q hq => by simp [hq]
  refine ⟨?_, fun q hq => (h.reg q hq).trans (hregs q hq), h.fault, fun a ha => ?_, fun k q hk => ?_⟩
  · have := h.sp
    rw [List.length_cons]
    omega
  · rw [h.above a (by omega), State.pushReg_read, if_neg (by omega)]
  · cases k with
    | zero =>
      obtain rfl : r = q := by simpa using hk
      rw [h.above _ (by omega), State.pushReg_read, if_pos (by omega), hregs r hr]
    | succ k =>
      have hk' : rs[k]? = some q := by simpa using hk
      have hq : q ≠ 7 := fun heq => hrs (heq ▸ List.mem_of_getElem? hk')
      rw [← hregs q hq, ← h.bytes k q hk']
      congr 1
      omega

/-- Pushes run through where the stack pointer is at least their number. -/
theorem execAll_pushes (rs : List (Fin 8)) (s : State) (hrs : 7 ∉ rs) (hsp : rs.length ≤ (s.reg 7).toNat) :
    ∃ t, execAll (rs.map fun r => .push (regByte r)) s = .next t ∧ Pushed rs s t := by
  induction rs generalizing s with
  | nil => exact ⟨s, rfl, rfl, fun _ _ => rfl, rfl, fun _ _ => rfl, fun k r hk => by simp at hk⟩
  | cons r rs ih =>
    rw [List.mem_cons, not_or] at hrs
    rw [List.length_cons] at hsp
    have hne : s.reg 7 ≠ 0#8 := fun h => by simp [h] at hsp
    have hdec : ((s.pushReg r).reg 7).toNat + 1 = (s.reg 7).toNat := by simpa using State.pushAddr_toNat hne
    obtain ⟨t, ht, hpushed⟩ := ih (s.pushReg r) hrs.2 (by omega)
    exact ⟨t, (execAll_cons (exec_push_of_ne_zero r hne)).trans ht, hpushed.cons (Ne.symm hrs.1) hrs.2 hne⟩

/-- What `n` pops into registers other than the stack pointer make of `s`, beside those registers. -/
structure Popped (n : Nat) (s t : State) : Prop where
  sp : (t.reg 7).toNat = (s.reg 7).toNat + n
  fault : t.fault = s.fault
  mem : t.mem = s.mem

/-- A POP into a register `q` other than the stack pointer, which is below 255: `q` gets the byte at the pointer. -/
theorem exec_pop_popped {q : Fin 8} {s : State} (hq : q ≠ 7) (hsp : (s.reg 7).toNat < 255) :
    ∃ t, exec (.pop (regByte q)) s = .next t ∧ Popped 1 s t ∧ t.reg q = s.mem.read (s.reg 7).toNat := by
  have hpopped : s.poppedSp q = (s.reg 7).toNat + 1 := by
    rw [State.poppedSp, spIndex_eq, if_neg hq]
    rfl
  refine ⟨_, exec_pop_of_le (by omega), ⟨?_, rfl, rfl⟩, ?_⟩
  · rw [State.setReg_reg, if_pos rfl, BitVec.toNat_ofNat, hpopped, Nat.mod_eq_of_lt (by omega)]
  · rw [State.setReg_reg_of_ne _ _ hq, State.setReg_reg, if_pos rfl]
    rfl

/-- Pops run through where the pointer they end with is at most 255. -/
theorem execAll_pops (qs : List (Fin 8)) (s : State) (hqs : 7 ∉ qs) (hsp : (s.reg 7).toNat + qs.length ≤ 255) :
    ∃ t, execAll (qs.map fun q => .pop (regByte q)) s = .next t ∧ Popped qs.length s t := by
  induction qs generalizing s with
  | nil => exact ⟨s, rfl, rfl, rfl, rfl⟩
  | cons q qs ih =>
    rw [List.mem_cons, not_or] at hqs
    rw [List.length_cons] at hsp
    obtain ⟨u, hu, hone, -⟩ := exec_pop_popped (Ne.symm hqs.1) (show (s.reg 7).toNat < 255 by omega)
    have husp := hone.sp
    obtain ⟨t, ht, hrest⟩ := ih u hqs.2 (by omega)
    refine ⟨t, (execAll_cons hu).trans ht, ?_, hrest.fault.trans hone.fault, hrest.mem.trans hone.mem⟩
    rw [hrest.sp, husp, List.length_cons]
    omega

/-- The last of a number of pops gets the byte as many above the pointer as pops went before it. -/
theorem execAll_pops_last {qs : List (Fin 8)} {q : Fin 8} {k : Nat} {s : State} (hqs : 7 ∉ qs) (hk : qs[k]? = some q)
    (hsp : (s.reg 7).toNat + qs.length ≤ 255) :
    ∃ u, execAll ((qs.take (k + 1)).map fun q => .pop (regByte q)) s = .next u ∧
      u.reg q = s.mem.read ((s.reg 7).toNat + k) := by
  obtain ⟨hlt, rfl⟩ := List.getElem?_eq_some_iff.1 hk
  have hlength : (qs.take k).length = k := List.length_take_of_le hlt.le
  obtain ⟨t, ht, hpopped⟩ := execAll_pops (qs.take k) s (fun h => hqs (List.mem_of_mem_take h)) (by omega)
  have htsp := hpopped.sp
  obtain ⟨u, hu, -, hbyte⟩ := exec_pop_popped (q := qs[k]) (s := t)
    (fun heq => hqs (heq ▸ List.getElem_mem hlt)) (by omega)
  refine ⟨u, ?_, by rw [hbyte, hpopped.mem, htsp, hlength]⟩
  rw [List.take_succ_eq_append_getElem hlt, List.map_append, execAll_append ht]
  exact execAll_cons hu

/-- Settles O51: the pushes leave the bytes below the old pointer, and each pop takes the byte at the pointer it has. -/
theorem stackIsLastInFirstOut : Obligations.StackIsLastInFirstOut := by
  intro rs qs s hlength hrs hqs hsp
  obtain ⟨t, ht, hpushed⟩ := execAll_pushes rs s hrs hsp
  have htsp := hpushed.sp
  have hroom : (t.reg 7).toNat + qs.length ≤ 255 := by
    have := (s.reg 7).isLt
    omega
  refine ⟨?_, fun k r q hr hq => ?_⟩
  · obtain ⟨u, hu, hpopped⟩ := execAll_pops qs t hqs hroom
    refine ⟨u, (execAll_append ht).trans hu, BitVec.eq_of_toNat_eq ?_, hpopped.fault.trans hpushed.fault⟩
    rw [hpopped.sp, ← hlength, htsp]
  · obtain ⟨u, hu, hbyte⟩ := execAll_pops_last hqs hq hroom
    obtain ⟨hk, -⟩ := List.getElem?_eq_some_iff.1 hq
    refine ⟨u, (execAll_append ht).trans hu, ?_⟩
    rw [hbyte, ← hpushed.bytes _ r hr]
    congr 1
    omega

/-- Settles O52: as many pushes as the pointer's value, as many pops as lead it to 255, and the law of the fault after
each. -/
theorem stackCapacityFromReset : Obligations.StackCapacityFromReset := by
  intro r s hr hsp
  have hspNat : (s.reg 7).toNat = 244 := by rw [hsp]; rfl
  have hmem : ∀ n, (7 : Fin 8) ∉ List.replicate n r := fun n h => hr (List.eq_of_mem_replicate h).symm
  constructor
  · obtain ⟨t, ht, hpushed⟩ := execAll_pushes (List.replicate 244 r) s (hmem 244) (by rw [List.length_replicate, hspNat])
    have htsp : t.reg 7 = 0#8 := by
      have := hpushed.sp
      rw [List.length_replicate, hspNat] at this
      exact BitVec.eq_of_toNat_eq (by simpa using this)
    rw [List.map_replicate] at ht
    refine ⟨t, ht, htsp, hpushed.fault, fun a ha => ?_, exec_push_of_zero r htsp⟩
    rw [← hpushed.bytes (243 - a) r (by rw [List.getElem?_replicate, if_pos (by omega)]), hspNat]
    congr 1
    omega
  · obtain ⟨t, ht, hpopped⟩ := execAll_pops (List.replicate 11 r) s (hmem 11) (by rw [List.length_replicate, hspNat])
    have htsp : t.reg 7 = 255#8 := by
      have := hpopped.sp
      rw [List.length_replicate, hspNat] at this
      exact BitVec.eq_of_toNat_eq this
    rw [List.map_replicate] at ht
    exact ⟨t, ht, htsp, hpopped.fault, (popPastTopRaises t).1 r hr htsp⟩

/-! ### Reset and launch (10_state.md R27, 70_reset_and_hazards.md R160 to R163) -/

/-- The registers of the reset state. -/
theorem State.resetWith_reg (gpr : Byte) (fl : Flags) (r : Fin 8) :
    (State.resetWith gpr fl).reg r = if r = 7 then 0xF4#8 else gpr := by
  fin_cases r <;> rfl

/-- Settles O54: each part of the reset state as defined. -/
theorem resetValues : Obligations.ResetValues := by
  refine ⟨?_, rfl⟩
  rintro gpr fl s rfl
  exact ⟨fun _ => rfl, State.resetWith_reg gpr fl, rfl, rfl, rfl, rfl, rfl, rfl⟩

/-- Memory after a load from `base` on of bytes that fit: the bytes in their place, every other byte as before. -/
theorem State.loadFrom_read (s : State) (base : Nat) (image : List Byte) (hfit : base + image.length ≤ 256) (a : Nat) :
    (s.loadFrom base image).mem.read a =
      if base ≤ a ∧ a < base + image.length then image.getD (a - base) 0#8 else s.mem.read a := by
  induction image generalizing s base with
  | nil => exact (if_neg (by simp)).symm
  | cons b bs ih =>
    rw [List.length_cons] at hfit ⊢
    have hbase : (BitVec.ofNat 8 base).toNat = base := by
      rw [BitVec.toNat_ofNat]
      exact Nat.mod_eq_of_lt (by omega)
    rw [State.loadFrom, ih _ _ (by omega), State.memWrite_read, hbase]
    rcases Nat.lt_trichotomy a base with hlt | rfl | hgt
    · rw [if_neg (by omega), if_neg (by omega), if_neg (by omega)]
    · rw [if_neg (by omega), if_pos rfl, if_pos (by omega), Nat.sub_self, List.getD_cons_zero]
    · have hsub : a - base = a - (base + 1) + 1 := by omega
      rw [hsub, List.getD_cons_succ]
      by_cases ha : a < base + 1 + bs.length
      · rw [if_pos (by omega), if_pos (by omega)]
      · rw [if_neg (by omega), if_neg (by omega), if_neg (by omega)]

/-- Settles O55: the launch state is reset with the image loaded from address 0. -/
theorem launchStateOfImage : Obligations.LaunchStateOfImage := by
  intro image
  constructor
  · rw [Option.eq_none_iff_forall_ne_some]
    simp only [ne_eq, launch_eq_some_iff, not_and, gt_iff_lt]
    exact ⟨fun h => Nat.lt_of_not_le fun hle => h _ hle rfl, fun hgt _ hle => absurd hle (Nat.not_le.2 hgt)⟩
  · intro s hs
    obtain ⟨hle, rfl⟩ := launch_eq_some_iff.1 hs
    refine ⟨fun a => ?_, State.reset.loadFrom_sameButMemory 0 image⟩
    rw [State.loadFrom_read _ _ _ (by omega), Nat.sub_zero]
    by_cases ha : a < image.length
    · rw [if_pos (by omega)]
    · rw [if_neg (by omega), List.getD_eq_default _ _ (Nat.not_lt.1 ha)]
      rfl

/-! ### The block (70_reset_and_hazards.md R171, R172) -/

/-- The load events, before the release, load the image, and further events go on from there. -/
theorem Block.applyAll_loadEvents (o : Opcodes) (base : Nat) (image : List Byte) (evs : List Event) (s : State) :
    Block.applyAll o (loadEvents base image ++ evs) ⟨s, true⟩ = Block.applyAll o evs ⟨s.loadFrom base image, true⟩ := by
  induction image generalizing s base with
  | nil => rfl
  | cons b bs ih => exact ih (base + 1) (s.memWrite (BitVec.ofNat 8 base) b)

/-- Settles O56: the load events do what `State.loadFrom` does, and the release closes the port. -/
theorem loadPortDeliversLaunchState : Obligations.LoadPortDeliversLaunchState := by
  intro o image s hs
  obtain ⟨-, rfl⟩ := launch_eq_some_iff.1 hs
  exact Block.applyAll_loadEvents o 0 image [.release] State.reset

/-- A step of a block whose port is closed is the core's step. -/
theorem Block.apply_step {o : Opcodes} {s t : State} (h : stepWith o s = .next t) :
    Block.apply o ⟨s, false⟩ .step = .next ⟨t, false⟩ := by
  simp [Block.apply, h]

/-- Settles O57: what each event does to a block whose port is closed. -/
theorem launchedBlockEvents : Obligations.LaunchedBlockEvents := by
  intro o s ev c h
  cases ev with
  | load a d => exact .inl ⟨a, d, rfl, (Host.Outcome.next.inj h).symm⟩
  | release => exact .inr (.inl ⟨rfl, (Host.Outcome.next.inj h).symm⟩)
  | reset => exact .inr (.inr (.inl ⟨rfl, (Host.Outcome.next.inj h).symm⟩))
  | step =>
    obtain ⟨t, ht⟩ := stepAlwaysAnswersNext o s
    rw [Block.apply_step ht] at h
    exact .inr (.inr (.inr ⟨rfl, t, ht, (Host.Outcome.next.inj h).symm⟩))

/-! ### The end of a run (70_reset_and_hazards.md R166) -/

/-- A step of a Running core that ends it executes HLT or records a fault, which changes nothing but `pc` and FAULT. -/
theorem stepWith_stops {o : Opcodes} {s t : State} (hrun : s.status = .running) (h : stepWith o s = .next t)
    (hstop : t.status ≠ .running) :
    (t.status = .halted ∧ s.pc.toNat ≤ 253 ∧ decodeWith o (s.fetchedAt s.pc) = .ok .hlt) ∨
    (t.status = .faulted t.fault ∧ t.fault ≠ .noFault ∧ t.run = true ∧ SameButPcAndFault s t) := by
  by_cases hfault : t.fault = .noFault
  · have hhalted : t.status = .halted :=
      t.status_halted_iff.2 ⟨Bool.eq_false_iff.2 fun hset => hstop (t.status_running_iff.2 ⟨hset, hfault⟩), hfault⟩
    exact .inl ⟨hhalted, (stepHaltsExactlyOnHlt o s t hrun h).1 hhalted⟩
  · obtain ⟨hsame, -⟩ := faultsArePrecise o s t hrun h hfault
    obtain ⟨-, -, -, hrunEq, -⟩ := id hsame
    exact .inr ⟨(t.status_faulted_iff hfault).2 rfl, hfault, hrunEq.trans (State.run_of_running hrun), hsame⟩

/-- Settles O58: the last step of the run starts from a Running core and ends in one that is not. -/
theorem runEndsByHltOrRaise : Obligations.RunEndsByHltOrRaise := by
  rintro s t n hrun ⟨hend, hstop, hbefore⟩
  cases n with
  | zero => exact absurd (next_inj hend ▸ hrun) hstop
  | succ m =>
    obtain ⟨u, hu, hurun⟩ := hbefore m m.lt_succ_self
    have hstep : step u = .next t := (runSteps_succ_last hu).symm.trans hend
    exact ⟨m, u, rfl, hu, hurun, hstep, stepWith_stops hurun hstep hstop⟩

end Sys2Proof.Machine
